-- ==== Sys2Proof/Word.lean ====
section
/-! DEFINITION. The word types of the brv core (spec/00_scope.md R6, R7): 32-bit words, bytes, 5-bit register
indices. Addition, subtraction and the bitwise operations of R9 are those of `BitVec`. -/

namespace Sys2Proof

/-- A 32-bit word: a register, the program counter, an address, an instruction word (XLEN = ILEN = 32, R6). -/
abbrev Word := BitVec 32

/-- One byte of memory (R31). -/
abbrev Byte := BitVec 8

/-- A register index, a 5-bit number; all 32 values are legal (R11, R24). -/
abbrev RegIdx := BitVec 5

end Sys2Proof
end

