-- ==== Sys2Proof/Machine/Flags.lean ====
section
/-! DEFINITION. The hardware has no flags (spec/10_state.md R28): what other machines keep in flags, an instruction here
computes from two words. These are the comparisons (R9) and the value the set-less-than instructions write. -/

namespace Sys2Proof.Machine

/-- `lts(a, b)`: the signed readings compared (R9). -/
def lts (a b : Word) : Bool := a.slt b

/-- `ltu(a, b)`: the unsigned readings compared (R9). -/
def ltu (a b : Word) : Bool := a.ult b

/-- The word 1 when the comparison holds, else the word 0 (R109, D20). -/
def boolWord (c : Bool) : Word := if c then 1#32 else 0#32

end Sys2Proof.Machine
end

