-- ==== Sys2Proof/WellFormed.lean ====
section
/-! DEFINITION. Which instruction terms an instruction word can stand for: the ranges of the reconstructed immediates
(spec/30_encoding.md R64 to R68, R79). Register indices and shift counts are 5 bits wide by their type, so every value
of theirs is well formed (R24, R79). -/

namespace Sys2Proof

/-- A 12-bit immediate, I-type or S-type: signed reading -2048 to 2047 (R64, R65). -/
def fitsImm12 (imm : Word) : Bool := decide (-2048 ≤ imm.toInt ∧ imm.toInt ≤ 2047)

/-- A B-type offset: an even number from -4096 to 4094 (R66). -/
def fitsImmB (imm : Word) : Bool :=
  decide (-4096 ≤ imm.toInt ∧ imm.toInt ≤ 4094 ∧ imm.toInt % 2 = 0)

/-- A U-type immediate: a multiple of 4096 (R67). -/
def fitsImmU (imm : Word) : Bool := decide (imm.toNat % 4096 = 0)

/-- A J-type offset: an even number from -1048576 to 1048574 (R68). -/
def fitsImmJ (imm : Word) : Bool :=
  decide (-1048576 ≤ imm.toInt ∧ imm.toInt ≤ 1048574 ∧ imm.toInt % 2 = 0)

/-- The well-formed instructions: those whose immediate fits its format. -/
def Instr.wf : Instr → Bool
  | .add _ _ _ => true
  | .sub _ _ _ => true
  | .xor _ _ _ => true
  | .or _ _ _ => true
  | .and _ _ _ => true
  | .sll _ _ _ => true
  | .srl _ _ _ => true
  | .sra _ _ _ => true
  | .slt _ _ _ => true
  | .sltu _ _ _ => true
  | .addi _ _ imm => fitsImm12 imm
  | .xori _ _ imm => fitsImm12 imm
  | .ori _ _ imm => fitsImm12 imm
  | .andi _ _ imm => fitsImm12 imm
  | .slti _ _ imm => fitsImm12 imm
  | .sltiu _ _ imm => fitsImm12 imm
  | .slli _ _ _ => true
  | .srli _ _ _ => true
  | .srai _ _ _ => true
  | .lb _ _ imm => fitsImm12 imm
  | .lh _ _ imm => fitsImm12 imm
  | .lw _ _ imm => fitsImm12 imm
  | .lbu _ _ imm => fitsImm12 imm
  | .lhu _ _ imm => fitsImm12 imm
  | .sb _ _ imm => fitsImm12 imm
  | .sh _ _ imm => fitsImm12 imm
  | .sw _ _ imm => fitsImm12 imm
  | .beq _ _ imm => fitsImmB imm
  | .bne _ _ imm => fitsImmB imm
  | .blt _ _ imm => fitsImmB imm
  | .bge _ _ imm => fitsImmB imm
  | .bltu _ _ imm => fitsImmB imm
  | .bgeu _ _ imm => fitsImmB imm
  | .jal _ imm => fitsImmJ imm
  | .jalr _ _ imm => fitsImm12 imm
  | .lui _ imm => fitsImmU imm
  | .auipc _ imm => fitsImmU imm
  | .ecall => true
  | .ebreak => true

end Sys2Proof
end

