-- ==== Sys2Proof/Decode.lean ====
section
/-! DEFINITION. The bit-field decoder, the immediate reconstructor and the dispatch of spec/30_encoding.md (R61 to R75),
then the encoder (R81) and the opcode table (R74). Decoding is total; a word outside the 39 instructions is rejected by
the name of the dispatch level it fails at (R72, R75). -/

namespace Sys2Proof

/-! ### The bit-field decoder (R62, R63) -/

def opcodeOf (w : Word) : BitVec 7 := w.extractLsb' 0 7
def rdOf (w : Word) : RegIdx := w.extractLsb' 7 5
def funct3Of (w : Word) : BitVec 3 := w.extractLsb' 12 3
def rs1Of (w : Word) : RegIdx := w.extractLsb' 15 5
def rs2Of (w : Word) : RegIdx := w.extractLsb' 20 5
def funct7Of (w : Word) : BitVec 7 := w.extractLsb' 25 7

/-- The shift count of SLLI, SRLI, SRAI: `inst[24:20]` (R64). -/
def shamtOf (w : Word) : BitVec 5 := w.extractLsb' 20 5

/-- The raw immediate field `inst[31:20]` that selects ECALL or EBREAK (R190). -/
def sysFieldOf (w : Word) : BitVec 12 := w.extractLsb' 20 12

/-! ### The immediate reconstructor (R64 to R69) -/

/-- R64: `sext_12(inst[31:20])`. -/
def immI (w : Word) : Word := (w.extractLsb' 20 12).signExtend 32

/-- R65: `sext_12({inst[31:25], inst[11:7]})`. -/
def immS (w : Word) : Word := (w.extractLsb' 25 7 ++ w.extractLsb' 7 5 : BitVec 12).signExtend 32

/-- R66: `sext_13({inst[31], inst[7], inst[30:25], inst[11:8], 0})`. -/
def immB (w : Word) : Word :=
  (w.extractLsb' 31 1 ++ w.extractLsb' 7 1 ++ w.extractLsb' 25 6 ++ w.extractLsb' 8 4 ++ 0#1 : BitVec 13).signExtend 32

/-- R67: `{inst[31:12], 0^12}`. -/
def immU (w : Word) : Word := w.extractLsb' 12 20 ++ 0#12

/-- R68: `sext_21({inst[31], inst[19:12], inst[20], inst[30:21], 0})`. -/
def immJ (w : Word) : Word :=
  (w.extractLsb' 31 1 ++ w.extractLsb' 12 8 ++ w.extractLsb' 20 1 ++ w.extractLsb' 21 10 ++ 0#1 : BitVec 21).signExtend 32

/-- R69: the hardware's one sign-extension routine, two shifts by `k = 32 - N`. The immediates above extend directly;
that the two agree is a statement of the package. -/
def signextShifts (acc : Word) (k : Nat) : Word := (acc <<< k).sshiftRight k

/-! ### Dispatch (R71 to R75) -/

/-- Why bytes are no instruction. The first is the byte decoder's own; the other four name the level of R72 a word
fails at, and all four are the one verdict UNIMP of R75. -/
inductive Reject where
  /-- Fewer than the four bytes of an instruction (R60). -/
  | truncated
  /-- `inst[6:0]` is not one of the ten opcodes of R71. -/
  | unknownOpcode
  /-- `funct3` is in no row under this opcode (R75). -/
  | unknownFunct3
  /-- `inst[31:25]` is in no row under this opcode and funct3 (R111, R130). -/
  | unknownFunct7
  /-- `inst[31:20]` is neither 0 nor 1 under opcode 0x73, funct3 0 (R190, R193). -/
  | unknownSystemField
deriving DecidableEq, Repr

/-- Opcode 0x33 (R73, R111). -/
def decodeAluReg (w : Word) : Except Reject Instr :=
  let f3 := funct3Of w
  let f7 := funct7Of w
  let rd := rdOf w
  let rs1 := rs1Of w
  let rs2 := rs2Of w
  if f3 = 0#3 then
    if f7 = 0x00#7 then .ok (.add rd rs1 rs2)
    else if f7 = 0x20#7 then .ok (.sub rd rs1 rs2)
    else .error .unknownFunct7
  else if f3 = 5#3 then
    if f7 = 0x00#7 then .ok (.srl rd rs1 rs2)
    else if f7 = 0x20#7 then .ok (.sra rd rs1 rs2)
    else .error .unknownFunct7
  else if f7 ≠ 0x00#7 then .error .unknownFunct7
  else if f3 = 4#3 then .ok (.xor rd rs1 rs2)
  else if f3 = 6#3 then .ok (.or rd rs1 rs2)
  else if f3 = 7#3 then .ok (.and rd rs1 rs2)
  else if f3 = 1#3 then .ok (.sll rd rs1 rs2)
  else if f3 = 2#3 then .ok (.slt rd rs1 rs2)
  else .ok (.sltu rd rs1 rs2)

/-- Opcode 0x13 (R73, R130). -/
def decodeAluImm (w : Word) : Except Reject Instr :=
  let f3 := funct3Of w
  let f7 := funct7Of w
  let rd := rdOf w
  let rs1 := rs1Of w
  if f3 = 0#3 then .ok (.addi rd rs1 (immI w))
  else if f3 = 4#3 then .ok (.xori rd rs1 (immI w))
  else if f3 = 6#3 then .ok (.ori rd rs1 (immI w))
  else if f3 = 7#3 then .ok (.andi rd rs1 (immI w))
  else if f3 = 2#3 then .ok (.slti rd rs1 (immI w))
  else if f3 = 3#3 then .ok (.sltiu rd rs1 (immI w))
  else if f3 = 1#3 then
    if f7 = 0x00#7 then .ok (.slli rd rs1 (shamtOf w))
    else .error .unknownFunct7
  else
    if f7 = 0x00#7 then .ok (.srli rd rs1 (shamtOf w))
    else if f7 = 0x20#7 then .ok (.srai rd rs1 (shamtOf w))
    else .error .unknownFunct7

/-- Opcode 0x03 (R73, R146). -/
def decodeLoad (w : Word) : Except Reject Instr :=
  let f3 := funct3Of w
  let rd := rdOf w
  let rs1 := rs1Of w
  if f3 = 0#3 then .ok (.lb rd rs1 (immI w))
  else if f3 = 1#3 then .ok (.lh rd rs1 (immI w))
  else if f3 = 2#3 then .ok (.lw rd rs1 (immI w))
  else if f3 = 4#3 then .ok (.lbu rd rs1 (immI w))
  else if f3 = 5#3 then .ok (.lhu rd rs1 (immI w))
  else .error .unknownFunct3

/-- Opcode 0x23 (R73, R154). -/
def decodeStore (w : Word) : Except Reject Instr :=
  let f3 := funct3Of w
  let rs1 := rs1Of w
  let rs2 := rs2Of w
  if f3 = 0#3 then .ok (.sb rs1 rs2 (immS w))
  else if f3 = 1#3 then .ok (.sh rs1 rs2 (immS w))
  else if f3 = 2#3 then .ok (.sw rs1 rs2 (immS w))
  else .error .unknownFunct3

/-- Opcode 0x63 (R73, R167). -/
def decodeBranch (w : Word) : Except Reject Instr :=
  let f3 := funct3Of w
  let rs1 := rs1Of w
  let rs2 := rs2Of w
  if f3 = 0#3 then .ok (.beq rs1 rs2 (immB w))
  else if f3 = 1#3 then .ok (.bne rs1 rs2 (immB w))
  else if f3 = 4#3 then .ok (.blt rs1 rs2 (immB w))
  else if f3 = 5#3 then .ok (.bge rs1 rs2 (immB w))
  else if f3 = 6#3 then .ok (.bltu rs1 rs2 (immB w))
  else if f3 = 7#3 then .ok (.bgeu rs1 rs2 (immB w))
  else .error .unknownFunct3

/-- Opcode 0x73 (R190, R193): `rd` and `rs1` are not examined. -/
def decodeSystem (w : Word) : Except Reject Instr :=
  if funct3Of w = 0#3 then
    if sysFieldOf w = 0#12 then .ok .ecall
    else if sysFieldOf w = 1#12 then .ok .ebreak
    else .error .unknownSystemField
  else .error .unknownFunct3

/-- R92: the instruction of a word, or why it is unimplemented. A pure function of the word (R70). -/
def decodeWord (w : Word) : Except Reject Instr :=
  let op := opcodeOf w
  if op = 0x33#7 then decodeAluReg w
  else if op = 0x13#7 then decodeAluImm w
  else if op = 0x03#7 then decodeLoad w
  else if op = 0x23#7 then decodeStore w
  else if op = 0x63#7 then decodeBranch w
  else if op = 0x6F#7 then .ok (.jal (rdOf w) (immJ w))
  else if op = 0x67#7 then
    if funct3Of w = 0#3 then .ok (.jalr (rdOf w) (rs1Of w) (immI w))
    else .error .unknownFunct3
  else if op = 0x37#7 then .ok (.lui (rdOf w) (immU w))
  else if op = 0x17#7 then .ok (.auipc (rdOf w) (immU w))
  else if op = 0x73#7 then decodeSystem w
  else .error .unknownOpcode

/-- The little-endian instruction word of four bytes, the first at the lowest address (R41, R55). -/
def wordOfBytes (b0 b1 b2 b3 : Byte) : Word := b3 ++ b2 ++ b1 ++ b0

/-- The four bytes of a word, the least significant first (R41, R226). -/
def bytesOfWord (w : Word) : List Byte :=
  [w.extractLsb' 0 8, w.extractLsb' 8 8, w.extractLsb' 16 8, w.extractLsb' 24 8]

/-- Decoding bytes: the instruction of the first four and the bytes after them. -/
def decode : List Byte → Except Reject (Instr × List Byte)
  | b0 :: b1 :: b2 :: b3 :: rest =>
    match decodeWord (wordOfBytes b0 b1 b2 b3) with
    | .ok i => .ok (i, rest)
    | .error r => .error r
  | _ => .error .truncated

/-- The instruction read from a row's bits, `nbits` of them, every bit above them 0; the bits are laid out as
little-endian bytes and given to `decode`. -/
def decodeTableWord (nbits w : Nat) : Option Instr :=
  match decode (bytesOfWord (BitVec.ofNat 32 (w % 2 ^ nbits))) with
  | .ok (i, _) => some i
  | .error _ => none

/-! ### The encoder: the formats of R61 with the placement of R81 -/

def encodeR (f7 : BitVec 7) (rs2 rs1 : RegIdx) (f3 : BitVec 3) (rd : RegIdx) (op : BitVec 7) : Word :=
  f7 ++ rs2 ++ rs1 ++ f3 ++ rd ++ op

def encodeI (imm : Word) (rs1 : RegIdx) (f3 : BitVec 3) (rd : RegIdx) (op : BitVec 7) : Word :=
  imm.extractLsb' 0 12 ++ rs1 ++ f3 ++ rd ++ op

def encodeS (imm : Word) (rs2 rs1 : RegIdx) (f3 : BitVec 3) (op : BitVec 7) : Word :=
  imm.extractLsb' 5 7 ++ rs2 ++ rs1 ++ f3 ++ imm.extractLsb' 0 5 ++ op

def encodeB (imm : Word) (rs2 rs1 : RegIdx) (f3 : BitVec 3) (op : BitVec 7) : Word :=
  imm.extractLsb' 12 1 ++ imm.extractLsb' 5 6 ++ rs2 ++ rs1 ++ f3 ++ imm.extractLsb' 1 4 ++ imm.extractLsb' 11 1 ++ op

def encodeU (imm : Word) (rd : RegIdx) (op : BitVec 7) : Word :=
  imm.extractLsb' 12 20 ++ rd ++ op

def encodeJ (imm : Word) (rd : RegIdx) (op : BitVec 7) : Word :=
  imm.extractLsb' 20 1 ++ imm.extractLsb' 1 10 ++ imm.extractLsb' 11 1 ++ imm.extractLsb' 12 8 ++ rd ++ op

/-- The word of an instruction (R73 for the function codes). ECALL and EBREAK take the assembled form, `rd` and `rs1`
zero (R190). -/
def encode : Instr → Word
  | .add rd rs1 rs2 => encodeR 0x00#7 rs2 rs1 0#3 rd 0x33#7
  | .sub rd rs1 rs2 => encodeR 0x20#7 rs2 rs1 0#3 rd 0x33#7
  | .xor rd rs1 rs2 => encodeR 0x00#7 rs2 rs1 4#3 rd 0x33#7
  | .or rd rs1 rs2 => encodeR 0x00#7 rs2 rs1 6#3 rd 0x33#7
  | .and rd rs1 rs2 => encodeR 0x00#7 rs2 rs1 7#3 rd 0x33#7
  | .sll rd rs1 rs2 => encodeR 0x00#7 rs2 rs1 1#3 rd 0x33#7
  | .srl rd rs1 rs2 => encodeR 0x00#7 rs2 rs1 5#3 rd 0x33#7
  | .sra rd rs1 rs2 => encodeR 0x20#7 rs2 rs1 5#3 rd 0x33#7
  | .slt rd rs1 rs2 => encodeR 0x00#7 rs2 rs1 2#3 rd 0x33#7
  | .sltu rd rs1 rs2 => encodeR 0x00#7 rs2 rs1 3#3 rd 0x33#7
  | .addi rd rs1 imm => encodeI imm rs1 0#3 rd 0x13#7
  | .xori rd rs1 imm => encodeI imm rs1 4#3 rd 0x13#7
  | .ori rd rs1 imm => encodeI imm rs1 6#3 rd 0x13#7
  | .andi rd rs1 imm => encodeI imm rs1 7#3 rd 0x13#7
  | .slti rd rs1 imm => encodeI imm rs1 2#3 rd 0x13#7
  | .sltiu rd rs1 imm => encodeI imm rs1 3#3 rd 0x13#7
  | .slli rd rs1 shamt => encodeR 0x00#7 shamt rs1 1#3 rd 0x13#7
  | .srli rd rs1 shamt => encodeR 0x00#7 shamt rs1 5#3 rd 0x13#7
  | .srai rd rs1 shamt => encodeR 0x20#7 shamt rs1 5#3 rd 0x13#7
  | .lb rd rs1 imm => encodeI imm rs1 0#3 rd 0x03#7
  | .lh rd rs1 imm => encodeI imm rs1 1#3 rd 0x03#7
  | .lw rd rs1 imm => encodeI imm rs1 2#3 rd 0x03#7
  | .lbu rd rs1 imm => encodeI imm rs1 4#3 rd 0x03#7
  | .lhu rd rs1 imm => encodeI imm rs1 5#3 rd 0x03#7
  | .sb rs1 rs2 imm => encodeS imm rs2 rs1 0#3 0x23#7
  | .sh rs1 rs2 imm => encodeS imm rs2 rs1 1#3 0x23#7
  | .sw rs1 rs2 imm => encodeS imm rs2 rs1 2#3 0x23#7
  | .beq rs1 rs2 imm => encodeB imm rs2 rs1 0#3 0x63#7
  | .bne rs1 rs2 imm => encodeB imm rs2 rs1 1#3 0x63#7
  | .blt rs1 rs2 imm => encodeB imm rs2 rs1 4#3 0x63#7
  | .bge rs1 rs2 imm => encodeB imm rs2 rs1 5#3 0x63#7
  | .bltu rs1 rs2 imm => encodeB imm rs2 rs1 6#3 0x63#7
  | .bgeu rs1 rs2 imm => encodeB imm rs2 rs1 7#3 0x63#7
  | .jal rd imm => encodeJ imm rd 0x6F#7
  | .jalr rd rs1 imm => encodeI imm rs1 0#3 rd 0x67#7
  | .lui rd imm => encodeU imm rd 0x37#7
  | .auipc rd imm => encodeU imm rd 0x17#7
  | .ecall => encodeI 0#32 0#5 0#3 0#5 0x73#7
  | .ebreak => encodeI 1#32 0#5 0#3 0#5 0x73#7

/-! ### The opcode table (R74) -/

/-- One row of R74: a word is the row's instruction exactly when `w &&& mask = pattern`. -/
structure Row where
  mnemonic : String
  pattern : Word
  mask : Word
deriving DecidableEq, Repr

/-- R74's test of a word against a row. -/
abbrev Row.holds (r : Row) (w : Word) : Prop := w &&& r.mask = r.pattern

/-- The row of each instruction, with the match and mask R74 prints. -/
def Instr.row : Instr → Row
  | .add _ _ _ => ⟨"ADD", 0x00000033#32, 0xFE00707F#32⟩
  | .sub _ _ _ => ⟨"SUB", 0x40000033#32, 0xFE00707F#32⟩
  | .xor _ _ _ => ⟨"XOR", 0x00004033#32, 0xFE00707F#32⟩
  | .or _ _ _ => ⟨"OR", 0x00006033#32, 0xFE00707F#32⟩
  | .and _ _ _ => ⟨"AND", 0x00007033#32, 0xFE00707F#32⟩
  | .sll _ _ _ => ⟨"SLL", 0x00001033#32, 0xFE00707F#32⟩
  | .srl _ _ _ => ⟨"SRL", 0x00005033#32, 0xFE00707F#32⟩
  | .sra _ _ _ => ⟨"SRA", 0x40005033#32, 0xFE00707F#32⟩
  | .slt _ _ _ => ⟨"SLT", 0x00002033#32, 0xFE00707F#32⟩
  | .sltu _ _ _ => ⟨"SLTU", 0x00003033#32, 0xFE00707F#32⟩
  | .addi _ _ _ => ⟨"ADDI", 0x00000013#32, 0x0000707F#32⟩
  | .xori _ _ _ => ⟨"XORI", 0x00004013#32, 0x0000707F#32⟩
  | .ori _ _ _ => ⟨"ORI", 0x00006013#32, 0x0000707F#32⟩
  | .andi _ _ _ => ⟨"ANDI", 0x00007013#32, 0x0000707F#32⟩
  | .slti _ _ _ => ⟨"SLTI", 0x00002013#32, 0x0000707F#32⟩
  | .sltiu _ _ _ => ⟨"SLTIU", 0x00003013#32, 0x0000707F#32⟩
  | .slli _ _ _ => ⟨"SLLI", 0x00001013#32, 0xFE00707F#32⟩
  | .srli _ _ _ => ⟨"SRLI", 0x00005013#32, 0xFE00707F#32⟩
  | .srai _ _ _ => ⟨"SRAI", 0x40005013#32, 0xFE00707F#32⟩
  | .lb _ _ _ => ⟨"LB", 0x00000003#32, 0x0000707F#32⟩
  | .lh _ _ _ => ⟨"LH", 0x00001003#32, 0x0000707F#32⟩
  | .lw _ _ _ => ⟨"LW", 0x00002003#32, 0x0000707F#32⟩
  | .lbu _ _ _ => ⟨"LBU", 0x00004003#32, 0x0000707F#32⟩
  | .lhu _ _ _ => ⟨"LHU", 0x00005003#32, 0x0000707F#32⟩
  | .sb _ _ _ => ⟨"SB", 0x00000023#32, 0x0000707F#32⟩
  | .sh _ _ _ => ⟨"SH", 0x00001023#32, 0x0000707F#32⟩
  | .sw _ _ _ => ⟨"SW", 0x00002023#32, 0x0000707F#32⟩
  | .beq _ _ _ => ⟨"BEQ", 0x00000063#32, 0x0000707F#32⟩
  | .bne _ _ _ => ⟨"BNE", 0x00001063#32, 0x0000707F#32⟩
  | .blt _ _ _ => ⟨"BLT", 0x00004063#32, 0x0000707F#32⟩
  | .bge _ _ _ => ⟨"BGE", 0x00005063#32, 0x0000707F#32⟩
  | .bltu _ _ _ => ⟨"BLTU", 0x00006063#32, 0x0000707F#32⟩
  | .bgeu _ _ _ => ⟨"BGEU", 0x00007063#32, 0x0000707F#32⟩
  | .jal _ _ => ⟨"JAL", 0x0000006F#32, 0x0000007F#32⟩
  | .jalr _ _ _ => ⟨"JALR", 0x00000067#32, 0x0000707F#32⟩
  | .lui _ _ => ⟨"LUI", 0x00000037#32, 0x0000007F#32⟩
  | .auipc _ _ => ⟨"AUIPC", 0x00000017#32, 0x0000007F#32⟩
  | .ecall => ⟨"ECALL", 0x00000073#32, 0xFFF0707F#32⟩
  | .ebreak => ⟨"EBREAK", 0x00100073#32, 0xFFF0707F#32⟩

/-- One instruction of each register-only or 5-bit shape, for the table below. -/
def sampleAlu : List Instr :=
  [.add 0 0 0, .sub 0 0 0, .xor 0 0 0, .or 0 0 0, .and 0 0 0, .sll 0 0 0, .srl 0 0 0, .sra 0 0 0, .slt 0 0 0,
   .sltu 0 0 0, .addi 0 0 0, .xori 0 0 0, .ori 0 0 0, .andi 0 0 0, .slti 0 0 0, .sltiu 0 0 0, .slli 0 0 0,
   .srli 0 0 0, .srai 0 0 0]

/-- One instruction of each of the other kinds. -/
def sampleOther : List Instr :=
  [.lb 0 0 0, .lh 0 0 0, .lw 0 0 0, .lbu 0 0 0, .lhu 0 0 0, .sb 0 0 0, .sh 0 0 0, .sw 0 0 0, .beq 0 0 0, .bne 0 0 0,
   .blt 0 0 0, .bge 0 0 0, .bltu 0 0 0, .bgeu 0 0 0, .jal 0 0, .jalr 0 0 0, .lui 0 0, .auipc 0 0, .ecall, .ebreak]

/-- The 39 rows of R74, in its order. -/
def opcodeTable : List Row := (sampleAlu ++ sampleOther).map Instr.row

end Sys2Proof
end

