-- ==== Sys2Proof/Config.lean ====
section
/-! DEFINITION. The implementation parameters of spec/00_scope.md R6. The three named parameters are carried as
data (`State.cfg`), so that a claim is about every configuration; the fixed values are constants. The spec leaves no
other value open, so there is no free value. -/

namespace Sys2Proof

/-- What an unimplemented instruction does after it is reported (R6, decision D4): the document's
"log-and-continue" and "log-and-abort". -/
inductive UnimpPolicy where
  | logAndContinue
  | logAndAbort
deriving DecidableEq, Repr

/-- The named parameters MEM_SIZE, UNIMP_POLICY and JALR_CLEAR_BIT0, with the defaults of R6. -/
structure Config where
  memSize : Nat := 8388608
  unimpPolicy : UnimpPolicy := .logAndContinue
  jalrClearBit0 : Bool := false
deriving DecidableEq, Repr

/-- The range R6 gives MEM_SIZE: 4 <= MEM_SIZE <= 2^32. -/
abbrev Config.wf (c : Config) : Prop := 4 ≤ c.memSize ∧ c.memSize ≤ 2 ^ 32

/-- The defaults of R6. -/
def Config.default : Config := {}

/-- RESET_PC (R6, R222). -/
def resetPc : Word := 0#32

/-- The length of every instruction in bytes (ILEN, R6, R60). -/
def instrBytes : Nat := 4

end Sys2Proof
end

