-- ==== Sys2Proof/Machine/State.lean ====
section
/-! DEFINITION. The state of the machine (spec/10_state.md), as plain data, its reset value (R35) and the reasons a step
can stop. What an operation does to the state is in Sys2Proof/Machine/Ops.lean. -/

namespace Sys2Proof.Machine

/-- The one piece of control state (R29). -/
inductive RunState where
  | running
  | halted
  | faulted
deriving DecidableEq, Repr

/-- The kind of an access, recorded in a MemoryFault (R203). -/
inductive AccessKind where
  | fetch
  | load
  | store
deriving DecidableEq, Repr

/-- A record of the report log (R33): `Unimplemented(pc, word)` or `MemoryFault(kind, addr, pc)`. -/
inductive Report where
  | unimplemented (pc word : Word)
  | memoryFault (kind : AccessKind) (addr pc : Word)
deriving DecidableEq, Repr

/-- The bytes that differ from the reset contents, in the canonical form `Memory.wf` (Sys2Proof/Machine/Ops.lean). -/
abbrev Memory := List Host.Cell

/-- The complete state (10_state.md, the tuple before R20, with the report log of R33). -/
structure State where
  /-- `x[1]` .. `x[31]`: slot `i - 1` holds `x[i]`. `x[0]` has no storage (R20, R22, D15). -/
  regs : Vector Word 31
  /-- The byte address of the instruction being executed (R25). -/
  pc : Word
  /-- RUNNING, HALTED or FAULTED (R29). -/
  runState : RunState
  /-- The attached memory (R31). -/
  mem : Memory
  /-- The report log, oldest record first (R33). -/
  log : List Report
  /-- MEM_SIZE, UNIMP_POLICY, JALR_CLEAR_BIT0 (R6): fixed for the run; no step changes it (log 1). -/
  cfg : Config
deriving DecidableEq, Repr

/-- Why the machine makes no step. The step function raises these and no instruction does. Both are SAFE: R90 enables
no step in these states. -/
inductive Fault where
  /-- Raised by `step` when `run_state` is HALTED: the run has ended normally (R29, R90, R96). Safe. -/
  | halted
  /-- Raised by `step` when `run_state` is FAULTED: the run ended with a MemoryFault or an aborting unimplemented
  instruction (R29, R90, R96). Safe. -/
  | faulted
deriving DecidableEq, Repr

/-- Why an instruction has no meaning. Nothing in the model raises one: every instruction has its meaning. -/
inductive Refusal where
  /-- An instruction not modelled yet, by its mnemonic; raised by no arm of `exec`. Safe. -/
  | notModelled (mnemonic : String)
deriving DecidableEq, Repr

/-- Reset under a configuration (R35, R221): registers 0, pc 0, RUNNING, memory all zero, log empty. -/
def State.resetWith (c : Config) : State where
  regs := Vector.replicate 31 0#32
  pc := resetPc
  runState := .running
  mem := []
  log := []
  cfg := c

/-- The machine right after reset, with the default parameters of R6. -/
def State.reset : State := State.resetWith Config.default

end Sys2Proof.Machine
end

