-- ==== Sys2Proof/Machine/Ops.lean ====
section
/-! DEFINITION. The named operations over memory, registers and pc (spec/00_scope.md R10; spec/20_memory.md R42 to R44,
R55) and the events (spec/60_exceptions.md R201): the one MemoryFault every access raises, the Unimplemented report and
the halt. The hardware has no trap to enter and none to return from (R200, R210). -/

namespace Sys2Proof.Machine

/-! ### Bytes of memory -/

/-- What an unlisted address reads as: the reset contents, zero (R31, R35). -/
def unlistedByte : Byte := 0#8

/-- The canonical form: addresses strictly rising, no entry equal to what an unlisted address reads as. -/
abbrev Memory.wf (m : Memory) : Prop :=
  m.Pairwise (fun c d => c.1 < d.1) ∧ ∀ c ∈ m, c.2 ≠ unlistedByte

/-- Every listed address lies below `size` (R40, R48). -/
abbrev Memory.within (m : Memory) (size : Nat) : Prop := ∀ c ∈ m, c.1 < size

/-- `M[a]`. -/
def Memory.readByte : Memory → Nat → Byte
  | [], _ => unlistedByte
  | (k, b) :: m, a => if k = a then b else Memory.readByte m a

/-- `M[a] <- v`, keeping the canonical form. -/
def Memory.writeByte : Memory → Nat → Byte → Memory
  | [], a, v => if v = unlistedByte then [] else [(a, v)]
  | (k, b) :: m, a, v =>
    if a < k then (if v = unlistedByte then (k, b) :: m else (a, v) :: (k, b) :: m)
    else if a = k then (if v = unlistedByte then m else (a, v) :: m)
    else (k, b) :: Memory.writeByte m a v

/-- The `n` bytes from `a` as one value, the byte at `a` least significant (R41, R42). -/
def Memory.readLE (m : Memory) (a : Nat) : (n : Nat) → BitVec (8 * n)
  | 0 => 0#0
  | n + 1 => Memory.readLE m (a + 1) n ++ Memory.readByte m a

/-- The low `n` bytes of `v` to `a .. a+n-1`, the least significant at `a` (R41, R43). -/
def Memory.writeLE (m : Memory) (a : Nat) : Nat → Word → Memory
  | 0, _ => m
  | n + 1, v => Memory.writeLE (Memory.writeByte m a (v.setWidth 8)) (a + 1) n (v >>> 8)

/-! ### Registers and pc -/

/-- The slot of a register index: `x[i]` with `1 <= i` is slot `i - 1`. -/
theorem slot_lt (r : RegIdx) : r.toNat - 1 < 31 := by have := r.isLt; omega

/-- `x[r]`; `x[0]` is the word 0 (R21). -/
def State.getReg (s : State) (r : RegIdx) : Word :=
  if r = 0#5 then 0#32 else s.regs[r.toNat - 1]'(slot_lt r)

/-- `x[r] <- v`; a write to index 0 is discarded (R22). -/
def State.setReg (s : State) (r : RegIdx) (v : Word) : State :=
  if r = 0#5 then s else { s with regs := s.regs.set (r.toNat - 1) v (slot_lt r) }

/-- `pc <- t`. -/
def State.setPc (s : State) (t : Word) : State := { s with pc := t }

/-- `add32(pc, 4)`: the next instruction in sequence, modulo 2^32 (R26, D10). -/
def State.nextPc (s : State) : Word := s.pc + 4#32

/-- `pc <- add32(pc, 4)` (R26, R93). -/
def State.advance (s : State) : State := s.setPc s.nextPc

def State.setMem (s : State) (m : Memory) : State := { s with mem := m }

def State.setRunState (s : State) (r : RunState) : State := { s with runState := r }

/-- Append one record to the report log (R33). -/
def State.report (s : State) (r : Report) : State := { s with log := s.log ++ [r] }

/-! ### Memory accesses -/

/-- The bounds test of R44, in unbounded integers: no byte of `addr .. addr+n-1` is at or above MEM_SIZE. -/
def State.inBounds (s : State) (addr : Word) (n : Nat) : Bool :=
  decide (addr.toNat + n ≤ s.cfg.memSize)

/-- `MemRead(addr, n)` (R42); `none` where the primitive raises MemoryFault. -/
def State.memRead (s : State) (addr : Word) (n : Nat) : Option (BitVec (8 * n)) :=
  if s.inBounds addr n then some (s.mem.readLE addr.toNat n) else none

/-- `MemWrite(addr, n, v)` (R43); `none` where the primitive raises MemoryFault, and then no byte is written (R44). -/
def State.memWrite (s : State) (addr : Word) (n : Nat) (v : Word) : Option State :=
  if s.inBounds addr n then some (s.setMem (s.mem.writeLE addr.toNat n v)) else none

/-- `Fetch(pc)` (R55): no alignment is required (R46). -/
def State.fetch (s : State) : Option Word := s.memRead s.pc 4

/-! ### Events (R201) -/

/-- MemoryFault (R203): FAULTED, one record with the access's first address and the instruction's address; no
register, byte or pc changes. -/
def State.raiseMemoryFault (s : State) (kind : AccessKind) (addr : Word) : State :=
  (s.report (.memoryFault kind addr s.pc)).setRunState .faulted

/-- UNIMP (R95, R202): one record; then `pc + 4`, or FAULTED with pc unchanged, by UNIMP_POLICY. -/
def State.unimplemented (s : State) (word : Word) : State :=
  match s.cfg.unimpPolicy with
  | .logAndContinue => (s.report (.unimplemented s.pc word)).advance
  | .logAndAbort => (s.report (.unimplemented s.pc word)).setRunState .faulted

/-- Halt (R192, R204): HALTED, pc unchanged, nothing recorded. -/
def State.halt (s : State) : State := s.setRunState .halted

/-! ### How an instruction ends -/

/-- An instruction's meaning answers one of the three outcomes of the host's interface. -/
abbrev Result := Host.Outcome State Fault Refusal

/-- `x[rd] <- r`, then `pc <- add32(pc, 4)` (R100, R120, R182). The value was computed from the state before (R12). -/
def State.writeResult (s : State) (rd : RegIdx) (r : Word) : Result := .next (s.setReg rd r).advance

/-- Load `n` bytes at `ea`, extend, write `x[rd]`, advance; or MemoryFault. The access is made when `rd = 0` too
(R140, D22). -/
def State.loadResult (s : State) (rd : RegIdx) (ea : Word) (n : Nat) (extend : BitVec (8 * n) → Word) : Result :=
  match s.memRead ea n with
  | some v => s.writeResult rd (extend v)
  | none => .next (s.raiseMemoryFault .load ea)

/-- Store the low `n` bytes of `v` at `ea`, advance; or MemoryFault (R150). -/
def State.storeResult (s : State) (ea : Word) (n : Nat) (v : Word) : Result :=
  match s.memWrite ea n v with
  | some t => .next t.advance
  | none => .next (s.raiseMemoryFault .store ea)

/-- A conditional branch (R160): `pc + imm_b` when taken, else `pc + 4`. -/
def State.branchResult (s : State) (taken : Bool) (imm : Word) : Result :=
  .next (s.setPc (if taken then s.pc + imm else s.nextPc))

/-- A jump: link to `rd`, then the target, both from the state before (R12, R170, R171). -/
def State.jumpResult (s : State) (rd : RegIdx) (target : Word) : Result :=
  .next ((s.setReg rd s.nextPc).setPc target)

/-! ### Placing bytes from outside -/

/-- Write bytes from address `a` upward, one after another (R226). -/
def Memory.writeList (m : Memory) (a : Nat) : List Byte → Memory
  | [] => m
  | b :: bs => Memory.writeList (Memory.writeByte m a b) (a + 1) bs

/-- Put a word where the next fetch reads, when all four of its bytes are in the memory; else change nothing. -/
def State.placeAtPc (s : State) (word : Word) : State :=
  if s.inBounds s.pc 4 then s.setMem (s.mem.writeLE s.pc.toNat 4 word) else s

end Sys2Proof.Machine
end

