-- ==== Sys2Proof/Machine/Operands.lean ====
section
/-! DEFINITION. The operand forms: the one addressing mode, the shift counts, the jump targets. -/

namespace Sys2Proof.Machine

/-- Base plus signed 12-bit displacement, modulo 2^32: `add32(x[rs1], imm)` (R140, R150). -/
def State.effAddr (s : State) (rs1 : RegIdx) (imm : Word) : Word := s.getReg rs1 + imm

/-- The shift count in a register: its low 5 bits (R106; R107, R108 by D19). -/
def regShiftCount (v : Word) : Nat := (v.extractLsb' 0 5).toNat

/-- JALR's target before bit 0 is considered, and after: bit 0 is cleared when JALR_CLEAR_BIT0 is `true` (R171). -/
def State.jalrTarget (s : State) (rs1 : RegIdx) (imm : Word) : Word :=
  let t := s.getReg rs1 + imm
  if s.cfg.jalrClearBit0 then t.extractLsb' 1 31 ++ 0#1 else t

/-- JAL's target, relative to the JAL's own address (R170). -/
def State.jalTarget (s : State) (imm : Word) : Word := s.pc + imm

end Sys2Proof.Machine
end

