-- ==== Sys2Proof/Machine/AluImm.lean ====
section
/-! DEFINITION. Register-immediate ALU, opcode 0x13 (spec/42_alu_immediate.md R120 to R130). -/

namespace Sys2Proof.Machine

/-- R121: `add32(x[rs1], imm_i)`. -/
def execAddi (rd rs1 : RegIdx) (imm : Word) (s : State) : Result :=
  s.writeResult rd (s.getReg rs1 + imm)

/-- R122. -/
def execXori (rd rs1 : RegIdx) (imm : Word) (s : State) : Result :=
  s.writeResult rd (s.getReg rs1 ^^^ imm)

/-- R123. -/
def execOri (rd rs1 : RegIdx) (imm : Word) (s : State) : Result :=
  s.writeResult rd (s.getReg rs1 ||| imm)

/-- R124. -/
def execAndi (rd rs1 : RegIdx) (imm : Word) (s : State) : Result :=
  s.writeResult rd (s.getReg rs1 &&& imm)

/-- R125. -/
def execSlti (rd rs1 : RegIdx) (imm : Word) (s : State) : Result :=
  s.writeResult rd (boolWord (lts (s.getReg rs1) imm))

/-- R126: the sign-extended immediate read as unsigned. -/
def execSltiu (rd rs1 : RegIdx) (imm : Word) (s : State) : Result :=
  s.writeResult rd (boolWord (ltu (s.getReg rs1) imm))

/-- R127. -/
def execSlli (rd rs1 : RegIdx) (shamt : BitVec 5) (s : State) : Result :=
  s.writeResult rd (s.getReg rs1 <<< shamt.toNat)

/-- R128. -/
def execSrli (rd rs1 : RegIdx) (shamt : BitVec 5) (s : State) : Result :=
  s.writeResult rd (s.getReg rs1 >>> shamt.toNat)

/-- R129. -/
def execSrai (rd rs1 : RegIdx) (shamt : BitVec 5) (s : State) : Result :=
  s.writeResult rd ((s.getReg rs1).sshiftRight shamt.toNat)

end Sys2Proof.Machine
end

