-- ==== Sys2Proof/Machine/AluReg.lean ====
section
/-! DEFINITION. Register-register ALU, opcode 0x33 (spec/41_alu_register.md R100 to R112). -/

namespace Sys2Proof.Machine

/-- R101: `add32(x[rs1], x[rs2])`. -/
def execAdd (rd rs1 rs2 : RegIdx) (s : State) : Result :=
  s.writeResult rd (s.getReg rs1 + s.getReg rs2)

/-- R102: `sub32(x[rs1], x[rs2])`, rs1 minus rs2. -/
def execSub (rd rs1 rs2 : RegIdx) (s : State) : Result :=
  s.writeResult rd (s.getReg rs1 - s.getReg rs2)

/-- R103. -/
def execXor (rd rs1 rs2 : RegIdx) (s : State) : Result :=
  s.writeResult rd (s.getReg rs1 ^^^ s.getReg rs2)

/-- R104. -/
def execOr (rd rs1 rs2 : RegIdx) (s : State) : Result :=
  s.writeResult rd (s.getReg rs1 ||| s.getReg rs2)

/-- R105. -/
def execAnd (rd rs1 rs2 : RegIdx) (s : State) : Result :=
  s.writeResult rd (s.getReg rs1 &&& s.getReg rs2)

/-- R106: zeros enter at bit 0. -/
def execSll (rd rs1 rs2 : RegIdx) (s : State) : Result :=
  s.writeResult rd (s.getReg rs1 <<< regShiftCount (s.getReg rs2))

/-- R107: zeros enter at bit 31. -/
def execSrl (rd rs1 rs2 : RegIdx) (s : State) : Result :=
  s.writeResult rd (s.getReg rs1 >>> regShiftCount (s.getReg rs2))

/-- R108: copies of bit 31 enter at bit 31. -/
def execSra (rd rs1 rs2 : RegIdx) (s : State) : Result :=
  s.writeResult rd ((s.getReg rs1).sshiftRight (regShiftCount (s.getReg rs2)))

/-- R109. -/
def execSlt (rd rs1 rs2 : RegIdx) (s : State) : Result :=
  s.writeResult rd (boolWord (lts (s.getReg rs1) (s.getReg rs2)))

/-- R110. -/
def execSltu (rd rs1 rs2 : RegIdx) (s : State) : Result :=
  s.writeResult rd (boolWord (ltu (s.getReg rs1) (s.getReg rs2)))

end Sys2Proof.Machine
end

