-- ==== Sys2Proof/Machine/Branches.lean ====
section
/-! DEFINITION. Conditional branches, opcode 0x63 (spec/45_branches.md R160 to R167). -/

namespace Sys2Proof.Machine

/-- R161: all 32 bits equal. -/
def execBeq (rs1 rs2 : RegIdx) (imm : Word) (s : State) : Result :=
  s.branchResult (s.getReg rs1 == s.getReg rs2) imm

/-- R162. -/
def execBne (rs1 rs2 : RegIdx) (imm : Word) (s : State) : Result :=
  s.branchResult (s.getReg rs1 != s.getReg rs2) imm

/-- R163: signed. -/
def execBlt (rs1 rs2 : RegIdx) (imm : Word) (s : State) : Result :=
  s.branchResult (lts (s.getReg rs1) (s.getReg rs2)) imm

/-- R164: signed, the negation of BLT. -/
def execBge (rs1 rs2 : RegIdx) (imm : Word) (s : State) : Result :=
  s.branchResult (!lts (s.getReg rs1) (s.getReg rs2)) imm

/-- R165: unsigned. -/
def execBltu (rs1 rs2 : RegIdx) (imm : Word) (s : State) : Result :=
  s.branchResult (ltu (s.getReg rs1) (s.getReg rs2)) imm

/-- R166: unsigned, the negation of BLTU. -/
def execBgeu (rs1 rs2 : RegIdx) (imm : Word) (s : State) : Result :=
  s.branchResult (!ltu (s.getReg rs1) (s.getReg rs2)) imm

end Sys2Proof.Machine
end

