-- ==== Sys2Proof/Machine/Jumps.lean ====
section
/-! DEFINITION. JAL and JALR (spec/46_jumps.md R170 to R173). -/

namespace Sys2Proof.Machine

/-- R170. -/
def execJal (rd : RegIdx) (imm : Word) (s : State) : Result :=
  s.jumpResult rd (s.jalTarget imm)

/-- R171: the target is absolute and read before the link is written (D6). -/
def execJalr (rd rs1 : RegIdx) (imm : Word) (s : State) : Result :=
  s.jumpResult rd (s.jalrTarget rs1 imm)

end Sys2Proof.Machine
end

