-- ==== Sys2Proof/Machine/Loads.lean ====
section
/-! DEFINITION. Loads, opcode 0x03 (spec/43_loads.md R140 to R146). -/

namespace Sys2Proof.Machine

/-- R141: one byte, sign-extended. -/
def execLb (rd rs1 : RegIdx) (imm : Word) (s : State) : Result :=
  s.loadResult rd (s.effAddr rs1 imm) 1 (fun v => v.signExtend 32)

/-- R142: two bytes, sign-extended. -/
def execLh (rd rs1 : RegIdx) (imm : Word) (s : State) : Result :=
  s.loadResult rd (s.effAddr rs1 imm) 2 (fun v => v.signExtend 32)

/-- R143: four bytes, as they are. -/
def execLw (rd rs1 : RegIdx) (imm : Word) (s : State) : Result :=
  s.loadResult rd (s.effAddr rs1 imm) 4 (fun v => v)

/-- R144: one byte, zero-extended. -/
def execLbu (rd rs1 : RegIdx) (imm : Word) (s : State) : Result :=
  s.loadResult rd (s.effAddr rs1 imm) 1 (fun v => v.setWidth 32)

/-- R145: two bytes, zero-extended. -/
def execLhu (rd rs1 : RegIdx) (imm : Word) (s : State) : Result :=
  s.loadResult rd (s.effAddr rs1 imm) 2 (fun v => v.setWidth 32)

end Sys2Proof.Machine
end

