-- ==== Sys2Proof/Machine/Stores.lean ====
section
/-! DEFINITION. Stores, opcode 0x23 (spec/44_stores.md R150 to R154). -/

namespace Sys2Proof.Machine

/-- R151: `M[ea] <- x[rs2][7:0]`. -/
def execSb (rs1 rs2 : RegIdx) (imm : Word) (s : State) : Result :=
  s.storeResult (s.effAddr rs1 imm) 1 (s.getReg rs2)

/-- R152: the low two bytes of `x[rs2]`. -/
def execSh (rs1 rs2 : RegIdx) (imm : Word) (s : State) : Result :=
  s.storeResult (s.effAddr rs1 imm) 2 (s.getReg rs2)

/-- R153: the four bytes of `x[rs2]`. -/
def execSw (rs1 rs2 : RegIdx) (imm : Word) (s : State) : Result :=
  s.storeResult (s.effAddr rs1 imm) 4 (s.getReg rs2)

end Sys2Proof.Machine
end

