-- ==== Sys2Proof/Machine/System.lean ====
section
/-! DEFINITION. ECALL and EBREAK (spec/48_system.md R190 to R194). -/

namespace Sys2Proof.Machine

/-- R191: "no-op, PC+=4". -/
def execEcall (s : State) : Result := .next s.advance

/-- R192: the halt instruction; pc stays at the EBREAK. -/
def execEbreak (s : State) : Result := .next s.halt

end Sys2Proof.Machine
end

