-- ==== Sys2Proof/Machine/Upper.lean ====
section
/-! DEFINITION. LUI and AUIPC (spec/47_upper_immediate.md R180 to R182). -/

namespace Sys2Proof.Machine

/-- R180. -/
def execLui (rd : RegIdx) (imm : Word) (s : State) : Result :=
  s.writeResult rd imm

/-- R181: `pc` is this instruction's own address. -/
def execAuipc (rd : RegIdx) (imm : Word) (s : State) : Result :=
  s.writeResult rd (s.pc + imm)

end Sys2Proof.Machine
end

