-- ==== Sys2Proof/Machine/Step.lean ====
section
/-! DEFINITION. The step (spec/40_cycle.md R90): fetch, dispatch, execute. -/

namespace Sys2Proof.Machine

/-- R90. A step is enabled exactly when RUNNING; in HALTED and FAULTED the machine is stuck, each under its own name
(log 3). A fetch beyond the memory raises MemoryFault before anything else (R91, R207); a word of no row is UNIMP
(R95); any other word runs its instruction (R93). -/
def step (s : State) : Host.Outcome State Fault Refusal :=
  match s.runState with
  | .halted => .fault .halted
  | .faulted => .fault .faulted
  | .running =>
    match s.fetch with
    | none => .next (s.raiseMemoryFault .fetch s.pc)
    | some w =>
      match decodeWord w with
      | .ok i => exec i s
      | .error _ => .next (s.unimplemented w)

/-- The state with an instruction's word at the four bytes the next step fetches, bits above `nbits` zero; nothing
else changes. It stands for the host's load of a program (R226; log 14, log 15). -/
def State.withFetchWord (s : State) (nbits w : Nat) : State :=
  s.placeAtPc (BitVec.ofNat 32 (w % 2 ^ nbits))

end Sys2Proof.Machine
end

