-- ==== Sys2Proof/Machine/HostPort.lean ====
section
/-! DEFINITION. What the host does to the machine outside its steps: it loads an image between reset and the first step
(spec/70_reset_and_hazards.md R226 to R228) and reads a snapshot between steps (spec/10_state.md R36, R23). A bounded
run (R232) is `Host.Core.run`. -/

namespace Sys2Proof.Machine

/-- R226, R227: reset, then byte `i` of the image becomes `M[i]`; an image longer than the memory is refused and no run
starts. -/
def boot (c : Config) (image : List Byte) : Option State :=
  if image.length ≤ c.memSize then
    some ((State.resetWith c).setMem (Memory.writeList [] 0 image))
  else none

/-- R228: with no image the host puts the word EBREAK at address 0. -/
def bootNoImage (c : Config) : Option State := boot c (bytesOfWord 0x00100073#32)

/-- R36: the 32 registers and pc, as the host reads them. -/
structure Snapshot where
  x : Vector Word 32
  pc : Word
deriving DecidableEq, Repr

/-- R36: reading changes nothing. -/
def State.snapshot (s : State) : Snapshot where
  x := Vector.ofFn (fun i : Fin 32 => s.getReg (BitVec.ofNat 5 i.val))
  pc := s.pc

/-- R23: the ABI name of each register index (the pairing is K8 of 93_implementation_defined.md; log 18). -/
def abiNames : List String :=
  ["zero", "ra", "sp", "gp", "tp", "t0", "t1", "t2"] ++ ["s0", "s1", "a0", "a1", "a2", "a3", "a4", "a5"] ++
  ["a6", "a7", "s2", "s3", "s4", "s5", "s6", "s7"] ++ ["s8", "s9", "s10", "s11", "t3", "t4", "t5", "t6"]

/-- The ABI name of a register; `x8` is "s0" here and "fp" by its second name (R23). -/
def abiName (r : RegIdx) : String := (abiNames[r.toNat]?).getD ""

/-- The architectural name `x0` .. `x31` (R23). -/
def archName (r : RegIdx) : String := "x" ++ toString r.toNat

end Sys2Proof.Machine
end

