-- ==== Sys2Proof/Machine/Pseudo.lean ====
section
/-! DEFINITION. The pseudo-instructions of spec/30_encoding.md R80: an assembler's spelling of instructions the hardware
has. The hardware knows none of them (R80), and decoding gives only their expansions. `x1` is the link register of RET
by convention only (R173). -/

namespace Sys2Proof.Machine

def pseudoNop : Instr := .addi 0 0 0
def pseudoMv (rd rs : RegIdx) : Instr := .addi rd rs 0
def pseudoLi (rd : RegIdx) (imm : Word) : Instr := .addi rd 0 imm
def pseudoNot (rd rs : RegIdx) : Instr := .xori rd rs (-1)
def pseudoNeg (rd rs : RegIdx) : Instr := .sub rd 0 rs
def pseudoSeqz (rd rs : RegIdx) : Instr := .sltiu rd rs 1
def pseudoSnez (rd rs : RegIdx) : Instr := .sltu rd 0 rs
def pseudoJ (offset : Word) : Instr := .jal 0 offset
def pseudoJr (rs : RegIdx) : Instr := .jalr 0 rs 0
def pseudoRet : Instr := .jalr 0 1 0
def pseudoBeqz (rs : RegIdx) (offset : Word) : Instr := .beq rs 0 offset
def pseudoBnez (rs : RegIdx) (offset : Word) : Instr := .bne rs 0 offset

/-- The LUI immediate of a general LI: the field `(imm + 0x800) >> 12`, placed in bits 31:12. -/
def liUpper (imm : Word) : Word := (imm + 0x800#32).extractLsb' 12 20 ++ 0#12

/-- The ADDI immediate of a general LI: the low 12 bits, sign-extended. -/
def liLower (imm : Word) : Word := (imm.extractLsb' 0 12).signExtend 32

/-- A general LI: LUI, then ADDI on the same register. -/
def pseudoLiWide (rd : RegIdx) (imm : Word) : Instr × Instr :=
  (.lui rd (liUpper imm), .addi rd rd (liLower imm))

end Sys2Proof.Machine
end

