-- ==== Sys2Proof/Safety.lean ====
section
/-! DEFINITION. The terms the package's statements are written in: what a state satisfies in every run, what counts as a
safe run, the arithmetic of spec/00_scope.md R8 and R9 written on integers as the spec writes it, what one instruction
may change, and which registers it names. -/

namespace Sys2Proof.Machine

/-- A record that does not end the run. -/
def Report.isUnimplemented : Report → Bool
  | .unimplemented _ _ => true
  | .memoryFault _ _ _ => false

/-- The report log fits run_state (R33, R201, R203): while RUNNING or HALTED it holds `Unimplemented` records only, and
none at all when the policy is abort; in FAULTED its LAST record says why the run stopped and was made at the pc the
core stopped at, and it is the log's only MemoryFault, if it is one. -/
def State.logFits (s : State) : Prop :=
  match s.runState with
  | .running | .halted =>
    (∀ r ∈ s.log, r.isUnimplemented = true) ∧ (s.cfg.unimpPolicy = .logAndAbort → s.log = [])
  | .faulted =>
    ∃ before last, s.log = before ++ [last] ∧ (∀ r ∈ before, r.isUnimplemented = true) ∧
      (s.cfg.unimpPolicy = .logAndAbort → before = []) ∧
      match last with
      | .unimplemented pc _ => pc = s.pc ∧ s.cfg.unimpPolicy = .logAndAbort
      | .memoryFault _ _ pc => pc = s.pc

/-- The invariant of the machine: the memory list is canonical and lies in the address space (R40, R48), the memory
size is in the range of R6, and the log fits run_state. -/
structure State.Inv (s : State) : Prop where
  memCanonical : s.mem.wf
  memWithin : s.mem.within s.cfg.memSize
  configInRange : s.cfg.wf
  logFits : s.logFits

/-- A run is quiet so far when nothing was reported (R202: "a claim about a run can require it to be empty"). -/
def State.quiet (s : State) : Prop := s.log = []

/-- A safe state: not FAULTED, and nothing reported. -/
def State.safe (s : State) : Prop := s.runState ≠ .faulted ∧ s.quiet

/-! ### What changes between two states -/

/-- Every register reads as before. -/
def SameRegs (s t : State) : Prop := ∀ r, t.getReg r = s.getReg r

/-- Every byte reads as before. -/
def SameMemory (s t : State) : Prop := ∀ a, t.mem.readByte a = s.mem.readByte a

/-- run_state, report log and configuration are as before. -/
structure SameControl (s t : State) : Prop where
  runState : t.runState = s.runState
  log : t.log = s.log
  cfg : t.cfg = s.cfg

/-- The only changes are `x[rd] <- v` (discarded when `rd = 0`) and `pc <- target`. -/
structure OnlyRegAndPc (s t : State) (rd : RegIdx) (v target : Word) : Prop where
  regs : ∀ r, t.getReg r = if r = 0#5 then 0#32 else if r = rd then v else s.getReg r
  pc : t.pc = target
  mem : SameMemory s t
  control : SameControl s t

/-- The only change is `pc <- target`. -/
structure OnlyPc (s t : State) (target : Word) : Prop where
  regs : SameRegs s t
  pc : t.pc = target
  mem : SameMemory s t
  control : SameControl s t

/-- The only changes are the `n` bytes from `addr`, which hold the low `n` bytes of `v`, the least significant at
`addr`, and `pc <- target`. -/
structure OnlyBytesAndPc (s t : State) (addr n : Nat) (v target : Word) : Prop where
  regs : SameRegs s t
  pc : t.pc = target
  mem : ∀ a, t.mem.readByte a =
    if addr ≤ a ∧ a < addr + n then BitVec.ofNat 8 (v.toNat / 2 ^ (8 * (a - addr))) else s.mem.readByte a
  control : SameControl s t

/-- A MemoryFault (R203): FAULTED and one record; no register, byte, pc or parameter changes. -/
structure FaultedBy (s t : State) (kind : AccessKind) (addr : Word) : Prop where
  regs : SameRegs s t
  pc : t.pc = s.pc
  mem : SameMemory s t
  cfg : t.cfg = s.cfg
  runState : t.runState = .faulted
  log : t.log = s.log ++ [.memoryFault kind addr s.pc]

end Sys2Proof.Machine

namespace Sys2Proof

/-- The register an instruction writes, if its rule names one (R24). -/
def Instr.dest : Instr → Option RegIdx
  | .add rd _ _ | .sub rd _ _ | .xor rd _ _ | .or rd _ _ | .and rd _ _ => some rd
  | .sll rd _ _ | .srl rd _ _ | .sra rd _ _ | .slt rd _ _ | .sltu rd _ _ => some rd
  | .addi rd _ _ | .xori rd _ _ | .ori rd _ _ | .andi rd _ _ | .slti rd _ _ | .sltiu rd _ _ => some rd
  | .slli rd _ _ | .srli rd _ _ | .srai rd _ _ => some rd
  | .lb rd _ _ | .lh rd _ _ | .lw rd _ _ | .lbu rd _ _ | .lhu rd _ _ => some rd
  | .jal rd _ | .jalr rd _ _ | .lui rd _ | .auipc rd _ => some rd
  | .sb _ _ _ | .sh _ _ _ | .sw _ _ _ => none
  | .beq _ _ _ | .bne _ _ _ | .blt _ _ _ | .bge _ _ _ | .bltu _ _ _ | .bgeu _ _ _ => none
  | .ecall | .ebreak => none

/-- The registers an instruction reads (R24). -/
def Instr.sources : Instr → List RegIdx
  | .add _ a b | .sub _ a b | .xor _ a b | .or _ a b | .and _ a b => [a, b]
  | .sll _ a b | .srl _ a b | .sra _ a b | .slt _ a b | .sltu _ a b => [a, b]
  | .addi _ a _ | .xori _ a _ | .ori _ a _ | .andi _ a _ | .slti _ a _ | .sltiu _ a _ => [a]
  | .slli _ a _ | .srli _ a _ | .srai _ a _ => [a]
  | .lb _ a _ | .lh _ a _ | .lw _ a _ | .lbu _ a _ | .lhu _ a _ => [a]
  | .sb a b _ | .sh a b _ | .sw a b _ => [a, b]
  | .beq a b _ | .bne a b _ | .blt a b _ | .bge a b _ | .bltu a b _ | .bgeu a b _ => [a, b]
  | .jalr _ a _ => [a]
  | .jal _ _ | .lui _ _ | .auipc _ _ | .ecall | .ebreak => []

/-- What an instruction loads: base register, offset, number of bytes (R140). -/
def Instr.loads : Instr → Option (RegIdx × Word × Nat)
  | .lb _ rs1 imm | .lbu _ rs1 imm => some (rs1, imm, 1)
  | .lh _ rs1 imm | .lhu _ rs1 imm => some (rs1, imm, 2)
  | .lw _ rs1 imm => some (rs1, imm, 4)
  | .add _ _ _ | .sub _ _ _ | .xor _ _ _ | .or _ _ _ | .and _ _ _ => none
  | .sll _ _ _ | .srl _ _ _ | .sra _ _ _ | .slt _ _ _ | .sltu _ _ _ => none
  | .addi _ _ _ | .xori _ _ _ | .ori _ _ _ | .andi _ _ _ | .slti _ _ _ | .sltiu _ _ _ => none
  | .slli _ _ _ | .srli _ _ _ | .srai _ _ _ => none
  | .sb _ _ _ | .sh _ _ _ | .sw _ _ _ => none
  | .beq _ _ _ | .bne _ _ _ | .blt _ _ _ | .bge _ _ _ | .bltu _ _ _ | .bgeu _ _ _ => none
  | .jal _ _ | .jalr _ _ _ | .lui _ _ | .auipc _ _ | .ecall | .ebreak => none

/-- What an instruction stores: base register, offset, number of bytes (R150). -/
def Instr.stores : Instr → Option (RegIdx × Word × Nat)
  | .sb rs1 _ imm => some (rs1, imm, 1)
  | .sh rs1 _ imm => some (rs1, imm, 2)
  | .sw rs1 _ imm => some (rs1, imm, 4)
  | .add _ _ _ | .sub _ _ _ | .xor _ _ _ | .or _ _ _ | .and _ _ _ => none
  | .sll _ _ _ | .srl _ _ _ | .sra _ _ _ | .slt _ _ _ | .sltu _ _ _ => none
  | .addi _ _ _ | .xori _ _ _ | .ori _ _ _ | .andi _ _ _ | .slti _ _ _ | .sltiu _ _ _ => none
  | .slli _ _ _ | .srli _ _ _ | .srai _ _ _ => none
  | .lb _ _ _ | .lh _ _ _ | .lw _ _ _ | .lbu _ _ _ | .lhu _ _ _ => none
  | .beq _ _ _ | .bne _ _ _ | .blt _ _ _ | .bge _ _ _ | .bltu _ _ _ | .bgeu _ _ _ => none
  | .jal _ _ | .jalr _ _ _ | .lui _ _ | .auipc _ _ | .ecall | .ebreak => none

/-! ### The arithmetic of R8 and R9, on integers -/

namespace Spec

/-- `(u(a) + u(b)) mod 2^32`. -/
def add32 (a b : Word) : Word := BitVec.ofNat 32 ((a.toNat + b.toNat) % 2 ^ 32)

/-- `(u(a) - u(b)) mod 2^32`, the non-negative residue. -/
def sub32 (a b : Word) : Word := BitVec.ofNat 32 (((a.toNat : Int) - (b.toNat : Int)) % 2 ^ 32).toNat

/-- `(u(a) * 2^n) mod 2^32`. -/
def shl32 (a : Word) (n : Nat) : Word := BitVec.ofNat 32 ((a.toNat * 2 ^ n) % 2 ^ 32)

/-- `floor(u(a) / 2^n)`. -/
def lsr32 (a : Word) (n : Nat) : Word := BitVec.ofNat 32 (a.toNat / 2 ^ n)

/-- The word whose signed reading is `floor(s(a) / 2^n)`. -/
def asr32 (a : Word) (n : Nat) : Word := BitVec.ofInt 32 (a.toInt.fdiv (2 ^ n))

/-- `s(a) < s(b)`, on the signed readings of R7. -/
abbrev lts (a b : Word) : Prop := a.toInt < b.toInt

/-- `u(a) < u(b)`. -/
abbrev ltu (a b : Word) : Prop := a.toNat < b.toNat

/-- `sext_N(v)` (R8): `u(v)` when `v[N-1] = 0`, `u(v) + 2^32 - 2^N` when it is 1. -/
def sext {N : Nat} (v : BitVec N) : Word :=
  BitVec.ofNat 32 (if v.getLsbD (N - 1) then v.toNat + 2 ^ 32 - 2 ^ N else v.toNat)

/-- `zext_N(v)` (R8). -/
def zext {N : Nat} (v : BitVec N) : Word := BitVec.ofNat 32 v.toNat

/-- The word 1 or the word 0 (R109). -/
def oneIf (p : Prop) [Decidable p] : Word := if p then 1#32 else 0#32

end Spec

end Sys2Proof
end

