-- ==== Sys2Proof/Certificates/Slice0/Obligations.lean ====
section
/-! DEFINITION. The statements made about the model, for the provers. Each docstring names the rule of the spec it
formalises, or the sections and the spec's own decisions (D<n> of 92_eei_decisions.md, K<n> of
93_implementation_defined.md) it rests on. -/

open Sys2Proof Sys2Proof.Machine

/-! ### Reset and boot -/

/-- The reset values of 10_state.md section 6, under every configuration. That the registers and pc hold 0 is the spec's
own decision D11, D12 (log 2); the parameters' defaults are those of 00_scope.md section 4 (log 1). -/
def Obligations.ResetLeavesTheResetValues : Prop :=
  (∀ c : Config,
    (∀ r, (State.resetWith c).getReg r = 0#32) ∧ (State.resetWith c).pc = 0#32 ∧
    (State.resetWith c).runState = .running ∧ (∀ a, (State.resetWith c).mem.readByte a = 0#8) ∧
    (State.resetWith c).log = [] ∧ (State.resetWith c).cfg = c) ∧
  State.reset.cfg.memSize = 2 ^ 23 ∧ State.reset.cfg.unimpPolicy = .logAndContinue ∧
  State.reset.cfg.jalrClearBit0 = false ∧ State.reset = State.resetWith State.reset.cfg

/-- The invariant of Sys2Proof/Safety.lean holds after reset, under every configuration whose memory size is in the
range of 00_scope.md section 4. -/
def Obligations.ResetMeetsTheInvariant : Prop :=
  (∀ c : Config, c.wf → (State.resetWith c).Inv) ∧ State.reset.Inv

/-- Every step keeps the invariant: the memory list canonical (log 7) and below MEM_SIZE (20_memory.md sections 1 and
6), the parameters in range, and the report log holding at most one MemoryFault, as its last record, exactly when the
run ended with one (10_state.md section 5; decisions D3, D4, D21). -/
def Obligations.StepKeepsTheInvariant : Prop :=
  ∀ s t : State, s.Inv → step s = .next t → t.Inv

/-- 70_reset_and_hazards.md section 2 (decision D23): byte `i` of the image becomes `M[i]`, every other byte stays 0,
everything else is as reset leaves it, and the machine meets its invariant; an image longer than the memory starts no
run. -/
def Obligations.BootPlacesTheImageOrRefusesIt : Prop :=
  ∀ (c : Config) (image : List Byte),
    (c.memSize < image.length → boot c image = none) ∧
    (image.length ≤ c.memSize → ∃ s, boot c image = some s ∧
      (∀ a, s.mem.readByte a = (image[a]?).getD 0#8) ∧
      s = { State.resetWith c with mem := s.mem } ∧ (c.wf → s.Inv))

/-- 70_reset_and_hazards.md section 2, no image: the injected EBREAK halts the core at the first step with every
register 0 and pc 0 (the values 0 by decisions D11, D12, log 2). -/
def Obligations.BootWithoutImageHaltsAtTheFirstStep : Prop :=
  ∀ c : Config, c.wf → ∃ s t, bootNoImage c = some s ∧ step s = .next t ∧
    t.runState = .halted ∧ t.pc = 0#32 ∧ (∀ r, t.getReg r = 0#32) ∧ t.log = []

/-! ### The step -/

/-- R90, the whole step. -/
def Obligations.StepFetchesDispatchesAndExecutes : Prop :=
  ∀ s : State,
    (s.runState ≠ .running → ∀ t, step s ≠ .next t) ∧
    (s.runState = .running →
      (s.fetch = none →
        step s = .next { s with runState := .faulted, log := s.log ++ [.memoryFault .fetch s.pc s.pc] }) ∧
      (∀ w reason, s.fetch = some w → decodeWord w = .error reason →
        (s.cfg.unimpPolicy = .logAndContinue →
          step s = .next { s with pc := s.pc + 4#32, log := s.log ++ [.unimplemented s.pc w] }) ∧
        (s.cfg.unimpPolicy = .logAndAbort →
          step s = .next { s with runState := .faulted, log := s.log ++ [.unimplemented s.pc w] })) ∧
      (∀ w i, s.fetch = some w → decodeWord w = .ok i → step s = exec i s)) ∧
    (∀ t, step s = .next t → t.getReg 0#5 = 0#32)

/-- In HALTED and FAULTED the model's step answers the stuck reason of that name (the model's choice, log 3; that no step
is enabled there is 40_cycle.md section 1). -/
def Obligations.HaltedAndFaultedAreStuckByName : Prop :=
  ∀ s : State,
    (s.runState = .halted → step s = .fault .halted) ∧ (s.runState = .faulted → step s = .fault .faulted)

/-- R91: the word is the four bytes at pc, little-endian, at any alignment; a fetch that reaches beyond the memory
raises MemoryFault(fetch, pc) and changes nothing else. -/
def Obligations.FetchReadsTheFourBytesAtPc : Prop :=
  ∀ s : State,
    (s.pc.toNat + 4 ≤ s.cfg.memSize →
      s.fetch = some (s.mem.readByte (s.pc.toNat + 3) ++ s.mem.readByte (s.pc.toNat + 2) ++
        s.mem.readByte (s.pc.toNat + 1) ++ s.mem.readByte s.pc.toNat)) ∧
    (s.cfg.memSize < s.pc.toNat + 4 → s.fetch = none ∧
      (s.runState = .running → ∃ t, step s = .next t ∧ FaultedBy s t .fetch s.pc))

/-- R201, the complete list of events: a step ends in a fetch fault, an unimplemented word, a load fault, a store fault
or the halt, each exactly under its condition and with exactly its effect and record, or in no event. -/
def Obligations.EveryStepEndsInAListedEventOrNone : Prop :=
  ∀ s t : State, step s = .next t →
    (s.cfg.memSize < s.pc.toNat + 4 ∧ FaultedBy s t .fetch s.pc) ∨
    (s.pc.toNat + 4 ≤ s.cfg.memSize ∧ ∃ w, s.fetch = some w ∧
      (((∀ row ∈ opcodeTable, ¬ row.holds w) ∧ SameRegs s t ∧ SameMemory s t ∧ t.cfg = s.cfg ∧
          t.log = s.log ++ [.unimplemented s.pc w] ∧
          (s.cfg.unimpPolicy = .logAndContinue → t.runState = .running ∧ t.pc = s.pc + 4#32) ∧
          (s.cfg.unimpPolicy = .logAndAbort → t.runState = .faulted ∧ t.pc = s.pc)) ∨
        ∃ i, decodeWord w = .ok i ∧
          ((∃ rs1 imm n, i.loads = some (rs1, imm, n) ∧ s.cfg.memSize < (s.effAddr rs1 imm).toNat + n ∧
              FaultedBy s t .load (s.effAddr rs1 imm)) ∨
            (∃ rs1 imm n, i.stores = some (rs1, imm, n) ∧ s.cfg.memSize < (s.effAddr rs1 imm).toNat + n ∧
              FaultedBy s t .store (s.effAddr rs1 imm)) ∨
            (i = .ebreak ∧ SameRegs s t ∧ SameMemory s t ∧ t.pc = s.pc ∧ t.runState = .halted ∧
              t.log = s.log ∧ t.cfg = s.cfg) ∨
            (i ≠ .ebreak ∧
              (∀ rs1 imm n, i.loads = some (rs1, imm, n) ∨ i.stores = some (rs1, imm, n) →
                (s.effAddr rs1 imm).toNat + n ≤ s.cfg.memSize) ∧
              SameControl s t))))

/-! ### Decode and encode -/

/-- Every well-formed instruction's word decodes to it, as a word and as bytes with more bytes after them
(30_encoding.md sections 2 to 5, R81's placement). ECALL and EBREAK are encoded in the assembled form; their function
codes and those of the loads, stores, branches and immediate operations are the spec's K1 to K4 (log 9). -/
def Obligations.DecodingAnEncodedInstructionGivesItBack : Prop :=
  ∀ i : Instr, i.wf = true →
    decodeWord (encode i) = .ok i ∧
    ∀ rest : List Byte, decode (bytesOfWord (encode i) ++ rest) = .ok (i, rest)

/-- The other direction: encoding what a word decodes to gives the word back; for ECALL and EBREAK it gives the word
with `rd` and `rs1` cleared, the two fields that are not examined (decision D9, log 8). -/
def Obligations.EncodingADecodedWordGivesItBack : Prop :=
  ∀ (w : Word) (i : Instr), decodeWord w = .ok i →
    (i ≠ .ecall → i ≠ .ebreak → encode i = w) ∧
    (i = .ecall ∨ i = .ebreak → encode i = w &&& 0xFFF0707F#32)

/-- The decoder gives well-formed instructions only: immediates in the ranges of 30_encoding.md section 4. -/
def Obligations.DecodedInstructionsAreWellFormed : Prop :=
  ∀ (w : Word) (i : Instr), decodeWord w = .ok i → i.wf = true

/-- Dispatch by opcode, funct3 and funct7 (30_encoding.md section 5) is the mask-and-match table of the same section:
a word decodes to an instruction exactly when it meets that instruction's row, and it is unimplemented exactly when it
meets no row. The table rests on decisions D7, D8, D9 and on K1 to K4 (logs 9, 10). -/
def Obligations.DispatchAgreesWithTheOpcodeTable : Prop :=
  (∀ (w : Word) (i : Instr), decodeWord w = .ok i → i.row ∈ opcodeTable ∧ i.row.holds w) ∧
  (∀ (w : Word) (row : Row), row ∈ opcodeTable → row.holds w → ∃ i, decodeWord w = .ok i ∧ i.row = row) ∧
  (∀ w : Word, (∃ reason, decodeWord w = .error reason) ↔ ∀ row ∈ opcodeTable, ¬ row.holds w)

/-- The 39 rows are pairwise disjoint: no word meets two of them (30_encoding.md section 5). -/
def Obligations.NoWordMeetsTwoRows : Prop :=
  opcodeTable.length = 39 ∧ opcodeTable.Pairwise (fun p q => ∀ w : Word, ¬ (p.holds w ∧ q.holds w))

/-- Words written out in the spec, at least one of every family, decode to the instruction it names for them, and words
of its unimplemented space are rejected (95_test_vectors.md sections 1.1 and 4; 30_encoding.md sections 5 and 6). The
spec has the one verdict UNIMP for the last five; the name each rejection carries is the model's choice (log 19). That
funct7 0x01 is rejected is decision D7 (log 10), that ECALL and EBREAK words may have any `rd` and `rs1` is D9 (log 8),
and the function codes of loads, stores, branches and immediate operations are the spec's K1 to K4 (log 9). -/
def Obligations.WordsOfTheSpecDecodeAsItSays : Prop :=
  decodeWord 0x06408093#32 = .ok (.addi 1 1 100) ∧
  decodeWord 0x0C810113#32 = .ok (.addi 2 2 200) ∧
  decodeWord 0x001101B3#32 = .ok (.add 3 2 1) ∧
  decodeWord 0x4020D1B3#32 = .ok (.sra 3 1 2) ∧
  decodeWord 0x4040D113#32 = .ok (.srai 2 1 4) ∧
  decodeWord 0xFFC0A103#32 = .ok (.lw 2 1 0xFFFFFFFC#32) ∧
  decodeWord 0xFE20AE23#32 = .ok (.sw 1 2 0xFFFFFFFC#32) ∧
  decodeWord 0x7E20DFE3#32 = .ok (.bge 1 2 4094) ∧
  decodeWord 0x800000EF#32 = .ok (.jal 1 0xFFF00000#32) ∧
  decodeWord 0x003100E7#32 = .ok (.jalr 1 2 3) ∧
  decodeWord 0xABCDE2B7#32 = .ok (.lui 5 0xABCDE000#32) ∧
  decodeWord 0x00001297#32 = .ok (.auipc 5 0x1000#32) ∧
  decodeWord 0x001100F3#32 = .ok .ebreak ∧
  decodeWord 0x00000FF3#32 = .ok .ecall ∧
  decodeWord 0x00000000#32 = .error .unknownOpcode ∧
  decodeWord 0x0FF0000F#32 = .error .unknownOpcode ∧
  decodeWord 0x02208133#32 = .error .unknownFunct7 ∧
  decodeWord 0x30529073#32 = .error .unknownFunct3 ∧
  decodeWord 0x30200073#32 = .error .unknownSystemField

/-- R62, R63: each field by mask and shift. -/
def Obligations.FieldsAreMaskedAndShiftedBitsOfTheWord : Prop :=
  ∀ w : Word,
    (opcodeOf w).toNat = w.toNat % 128 ∧
    (rdOf w).setWidth 32 = (w >>> 7) &&& 0x1F#32 ∧
    (funct3Of w).setWidth 32 = (w >>> 12) &&& 0x07#32 ∧
    (rs1Of w).setWidth 32 = (w >>> 15) &&& 0x1F#32 ∧
    (rs2Of w).setWidth 32 = (w >>> 20) &&& 0x1F#32 ∧
    (funct7Of w).setWidth 32 = (w >>> 25) &&& 0x7F#32

/-- R64, R65: the I-type and S-type immediates: the placement, the two-shift extension by 20, the value as `sext_12`,
bit by bit, and the range; the two sub-fields of the immediate shifts. -/
def Obligations.ImmediatesOfIAndSFormat : Prop :=
  ∀ w : Word,
    immI w = Spec.sext (w.extractLsb' 20 12) ∧
    immI w = signextShifts ((w.extractLsb' 20 12).setWidth 32) 20 ∧
    (∀ k, k ≤ 10 → (immI w).getLsbD k = w.getLsbD (20 + k)) ∧
    (∀ k, 11 ≤ k → k ≤ 31 → (immI w).getLsbD k = w.getLsbD 31) ∧
    -2048 ≤ (immI w).toInt ∧ (immI w).toInt ≤ 2047 ∧
    (shamtOf w).toNat = w.toNat / 2 ^ 20 % 32 ∧ (immI w).extractLsb' 0 5 = shamtOf w ∧
    (immI w).extractLsb' 5 7 = funct7Of w ∧
    immS w = Spec.sext (w.extractLsb' 25 7 ++ w.extractLsb' 7 5 : BitVec 12) ∧
    immS w = signextShifts
      (((w.extractLsb' 25 7).setWidth 32 <<< 5) ||| (w.extractLsb' 7 5).setWidth 32) 20 ∧
    -2048 ≤ (immS w).toInt ∧ (immS w).toInt ≤ 2047

/-- The B-type and J-type immediates of 30_encoding.md section 4: the placement, the two-shift extension (by 19 and 11,
shift amounts the spec marks as derived), the value as `sext_13` and `sext_21`, bit 0 clear, and the range. -/
def Obligations.ImmediatesOfBAndJFormat : Prop :=
  ∀ w : Word,
    immB w = Spec.sext (w.extractLsb' 31 1 ++ w.extractLsb' 7 1 ++ w.extractLsb' 25 6 ++ w.extractLsb' 8 4 ++ 0#1
      : BitVec 13) ∧
    immB w = signextShifts
      (((w.extractLsb' 31 1).setWidth 32 <<< 12) ||| ((w.extractLsb' 7 1).setWidth 32 <<< 11) |||
        ((w.extractLsb' 25 6).setWidth 32 <<< 5) ||| ((w.extractLsb' 8 4).setWidth 32 <<< 1)) 19 ∧
    (immB w).getLsbD 0 = false ∧ -4096 ≤ (immB w).toInt ∧ (immB w).toInt ≤ 4094 ∧
    immJ w = Spec.sext (w.extractLsb' 31 1 ++ w.extractLsb' 12 8 ++ w.extractLsb' 20 1 ++ w.extractLsb' 21 10 ++ 0#1
      : BitVec 21) ∧
    immJ w = signextShifts
      (((w.extractLsb' 31 1).setWidth 32 <<< 20) ||| ((w.extractLsb' 12 8).setWidth 32 <<< 12) |||
        ((w.extractLsb' 20 1).setWidth 32 <<< 11) ||| ((w.extractLsb' 21 10).setWidth 32 <<< 1)) 11 ∧
    (immJ w).getLsbD 0 = false ∧ -1048576 ≤ (immJ w).toInt ∧ (immJ w).toInt ≤ 1048574

/-- R67: the upper 20 bits in place, the lower 12 zero. -/
def Obligations.UpperImmediateKeepsTheUpperTwentyBits : Prop :=
  ∀ w : Word, immU w = w &&& 0xFFFFF000#32 ∧ immU w = w.extractLsb' 12 20 ++ 0#12 ∧ (immU w).toNat % 4096 = 0

/-- The hardware's one routine, a left shift and an arithmetic right shift by `32 - N`, is `sext_N` for every width
(30_encoding.md, the sign-extension rule, an equality the spec marks as derived), and the document's property of the
4096 twelve-bit values holds. -/
def Obligations.TwoShiftsSignExtendEveryWidth : Prop :=
  (∀ (N : Nat) (v : BitVec N), 1 ≤ N → N ≤ 32 →
    signextShifts (v.setWidth 32) (32 - N) = Spec.sext v ∧ Spec.sext v = v.signExtend 32) ∧
  (∀ v : Nat, v < 4096 →
    (Spec.sext (BitVec.ofNat 12 v)).toInt = if 2048 ≤ v then (v : Int) - 4096 else (v : Int))

/-- 30_encoding.md, the inverse placement (marked as derived there): placing an offset of the format's range and
reconstructing it gives exactly that offset, for the I, S, B and J formats. -/
def Obligations.PlacedOffsetsAreReconstructedExactly : Prop :=
  (∀ o : Int, -2048 ≤ o → o ≤ 2047 → ∀ rs1 f3 rd op rs2 op',
    (immI (encodeI (BitVec.ofInt 32 o) rs1 f3 rd op)).toInt = o ∧
    (immS (encodeS (BitVec.ofInt 32 o) rs2 rs1 f3 op')).toInt = o) ∧
  (∀ o : Int, -4096 ≤ o → o ≤ 4094 → o % 2 = 0 → ∀ rs2 rs1 f3 op,
    (immB (encodeB (BitVec.ofInt 32 o) rs2 rs1 f3 op)).toInt = o) ∧
  (∀ o : Int, -1048576 ≤ o → o ≤ 1048574 → o % 2 = 0 → ∀ rd op,
    (immJ (encodeJ (BitVec.ofInt 32 o) rd op)).toInt = o)

/-! ### Register-register and register-immediate ALU -/

/-- ADD and SUB complete with the sum and the difference rs1 minus rs2 modulo 2^32 (41_alu_register.md section 2; the
wrap is the spec's decision D10, the operand order its K7, log 12); nothing but `x[rd]` and pc changes. -/
def Obligations.AddAndSubWriteTheResidueModulo2Pow32 : Prop :=
  ∀ (s : State) (rd rs1 rs2 : RegIdx),
    (∃ t, exec (.add rd rs1 rs2) s = .next t ∧
      OnlyRegAndPc s t rd (Spec.add32 (s.getReg rs1) (s.getReg rs2)) (Spec.add32 s.pc 4#32)) ∧
    (∃ t, exec (.sub rd rs1 rs2) s = .next t ∧
      OnlyRegAndPc s t rd (Spec.sub32 (s.getReg rs1) (s.getReg rs2)) (Spec.add32 s.pc 4#32))

/-- XOR, OR and AND complete with the bitwise result (41_alu_register.md section 2); nothing but `x[rd]` and pc
changes. -/
def Obligations.XorOrAndWriteTheBitwiseResult : Prop :=
  ∀ (s : State) (rd rs1 rs2 : RegIdx),
    (∃ t v, exec (.xor rd rs1 rs2) s = .next t ∧ OnlyRegAndPc s t rd v (Spec.add32 s.pc 4#32) ∧
      ∀ k, v.getLsbD k = ((s.getReg rs1).getLsbD k ^^ (s.getReg rs2).getLsbD k)) ∧
    (∃ t v, exec (.or rd rs1 rs2) s = .next t ∧ OnlyRegAndPc s t rd v (Spec.add32 s.pc 4#32) ∧
      ∀ k, v.getLsbD k = ((s.getReg rs1).getLsbD k || (s.getReg rs2).getLsbD k)) ∧
    (∃ t v, exec (.and rd rs1 rs2) s = .next t ∧ OnlyRegAndPc s t rd v (Spec.add32 s.pc 4#32) ∧
      ∀ k, v.getLsbD k = ((s.getReg rs1).getLsbD k && (s.getReg rs2).getLsbD k))

/-- SLL, SRL and SRA complete with `x[rs1]` shifted by the low 5 bits of `x[rs2]`: the product modulo 2^32, the unsigned
quotient, the signed quotient rounded down (41_alu_register.md section 2; for SRL and SRA the count is the spec's
decision D19, log 12). -/
def Obligations.RegisterShiftsUseTheLowFiveBitsOfTheCount : Prop :=
  ∀ (s : State) (rd rs1 rs2 : RegIdx),
    (∃ t, exec (.sll rd rs1 rs2) s = .next t ∧
      OnlyRegAndPc s t rd (Spec.shl32 (s.getReg rs1) ((s.getReg rs2).toNat % 32)) (Spec.add32 s.pc 4#32)) ∧
    (∃ t, exec (.srl rd rs1 rs2) s = .next t ∧
      OnlyRegAndPc s t rd (Spec.lsr32 (s.getReg rs1) ((s.getReg rs2).toNat % 32)) (Spec.add32 s.pc 4#32)) ∧
    (∃ t, exec (.sra rd rs1 rs2) s = .next t ∧
      OnlyRegAndPc s t rd (Spec.asr32 (s.getReg rs1) ((s.getReg rs2).toNat % 32)) (Spec.add32 s.pc 4#32))

/-- SLT and SLTU complete with the word 1 when the signed, respectively unsigned, readings compare less, else the word 0
(41_alu_register.md section 2; the written value is the spec's decision D20, log 12). -/
def Obligations.SetLessThanWritesOneOrZero : Prop :=
  ∀ (s : State) (rd rs1 rs2 : RegIdx),
    (∃ t, exec (.slt rd rs1 rs2) s = .next t ∧
      OnlyRegAndPc s t rd (Spec.oneIf (Spec.lts (s.getReg rs1) (s.getReg rs2))) (Spec.add32 s.pc 4#32)) ∧
    (∃ t, exec (.sltu rd rs1 rs2) s = .next t ∧
      OnlyRegAndPc s t rd (Spec.oneIf (Spec.ltu (s.getReg rs1) (s.getReg rs2))) (Spec.add32 s.pc 4#32))

/-- ADDI completes with the sum modulo 2^32 (42_alu_immediate.md section 2; decision D10). In particular, from `x0` it
leaves the immediate itself in any register but `x0` (the document's property P5). -/
def Obligations.AddiWritesTheSumWithTheImmediate : Prop :=
  ∀ (s : State) (rd rs1 : RegIdx) (imm : Word),
    (∃ t, exec (.addi rd rs1 imm) s = .next t ∧
      OnlyRegAndPc s t rd (Spec.add32 (s.getReg rs1) imm) (Spec.add32 s.pc 4#32)) ∧
    (∃ t, exec (.addi rd 0#5 imm) s = .next t ∧ t.getReg rd = if rd = 0#5 then 0#32 else imm)

/-- XORI, ORI and ANDI complete with the bitwise result on the sign-extended immediate (42_alu_immediate.md
section 2). -/
def Obligations.XoriOriAndiWriteTheBitwiseResult : Prop :=
  ∀ (s : State) (rd rs1 : RegIdx) (imm : Word),
    (∃ t v, exec (.xori rd rs1 imm) s = .next t ∧ OnlyRegAndPc s t rd v (Spec.add32 s.pc 4#32) ∧
      ∀ k, v.getLsbD k = ((s.getReg rs1).getLsbD k ^^ imm.getLsbD k)) ∧
    (∃ t v, exec (.ori rd rs1 imm) s = .next t ∧ OnlyRegAndPc s t rd v (Spec.add32 s.pc 4#32) ∧
      ∀ k, v.getLsbD k = ((s.getReg rs1).getLsbD k || imm.getLsbD k)) ∧
    (∃ t v, exec (.andi rd rs1 imm) s = .next t ∧ OnlyRegAndPc s t rd v (Spec.add32 s.pc 4#32) ∧
      ∀ k, v.getLsbD k = ((s.getReg rs1).getLsbD k && imm.getLsbD k))

/-- SLTI and SLTIU complete with the word 1 or 0; SLTIU reads the sign-extended immediate as unsigned
(42_alu_immediate.md section 2; decision D20). -/
def Obligations.SetLessThanImmediateWritesOneOrZero : Prop :=
  ∀ (s : State) (rd rs1 : RegIdx) (imm : Word),
    (∃ t, exec (.slti rd rs1 imm) s = .next t ∧
      OnlyRegAndPc s t rd (Spec.oneIf (Spec.lts (s.getReg rs1) imm)) (Spec.add32 s.pc 4#32)) ∧
    (∃ t, exec (.sltiu rd rs1 imm) s = .next t ∧
      OnlyRegAndPc s t rd (Spec.oneIf (Spec.ltu (s.getReg rs1) imm)) (Spec.add32 s.pc 4#32))

/-- SLLI, SRLI and SRAI complete with `x[rs1]` shifted by the 5-bit count (42_alu_immediate.md section 2). -/
def Obligations.ImmediateShiftsShiftByTheirCount : Prop :=
  ∀ (s : State) (rd rs1 : RegIdx) (shamt : BitVec 5),
    (∃ t, exec (.slli rd rs1 shamt) s = .next t ∧
      OnlyRegAndPc s t rd (Spec.shl32 (s.getReg rs1) shamt.toNat) (Spec.add32 s.pc 4#32)) ∧
    (∃ t, exec (.srli rd rs1 shamt) s = .next t ∧
      OnlyRegAndPc s t rd (Spec.lsr32 (s.getReg rs1) shamt.toNat) (Spec.add32 s.pc 4#32)) ∧
    (∃ t, exec (.srai rd rs1 shamt) s = .next t ∧
      OnlyRegAndPc s t rd (Spec.asr32 (s.getReg rs1) shamt.toNat) (Spec.add32 s.pc 4#32))

/-! ### Memory -/

/-- R42: `MemRead` gives the little-endian sum of its bytes, or nothing when a byte of it lies beyond the memory. -/
def Obligations.MemReadIsTheLittleEndianSum : Prop :=
  ∀ (s : State) (addr : Word) (n : Nat), n = 1 ∨ n = 2 ∨ n = 4 →
    (s.cfg.memSize < addr.toNat + n → s.memRead addr n = none) ∧
    (addr.toNat + n ≤ s.cfg.memSize → ∃ v, s.memRead addr n = some v ∧
      v.toNat = ((List.range n).map (fun i => (s.mem.readByte (addr.toNat + i)).toNat * 2 ^ (8 * i))).sum)

/-- R43: `MemWrite` sets exactly its bytes, the byte `i` to bits `8i+7 .. 8i` of the word, or writes nothing when a byte
of it lies beyond the memory. The premise is the canonical form of the memory list, which the invariant keeps. -/
def Obligations.MemWriteSetsExactlyItsBytes : Prop :=
  ∀ (s : State) (addr v : Word) (n : Nat), s.mem.wf → n = 1 ∨ n = 2 ∨ n = 4 →
    (s.cfg.memSize < addr.toNat + n → s.memWrite addr n v = none) ∧
    (addr.toNat + n ≤ s.cfg.memSize → ∃ t, s.memWrite addr n v = some t ∧ t = { s with mem := t.mem } ∧
      (∀ i, i < n → t.mem.readByte (addr.toNat + i) = v.extractLsb' (8 * i) 8) ∧
      (∀ a, a < addr.toNat ∨ addr.toNat + n ≤ a → t.mem.readByte a = s.mem.readByte a))

/-- The mixed-width view of 20_memory.md section 2 (marked as derived there): after a four-byte write, a one-byte and a
two-byte read inside it give those bytes of the word. -/
def Obligations.NarrowReadsSeeTheBytesOfAWrittenWord : Prop :=
  ∀ (s t : State) (addr v : Word), s.mem.wf → s.cfg.wf → s.memWrite addr 4 v = some t →
    (∀ k : Nat, k ≤ 3 → t.memRead (addr + BitVec.ofNat 32 k) 1 = some (v.extractLsb' (8 * k) 8)) ∧
    (∀ k : Nat, k ≤ 2 → t.memRead (addr + BitVec.ofNat 32 k) 2 = some (v.extractLsb' (8 * k) 16))

/-- LB and LBU complete with the byte at `x[rs1] + imm`, sign- and zero-extended, when it lies in the memory
(43_loads.md sections 1 and 2; the address sum is modulo 2^32 by decision D10). -/
def Obligations.ByteLoadsExtendTheByte : Prop :=
  ∀ (s : State) (rd rs1 : RegIdx) (imm : Word),
    s.effAddr rs1 imm = Spec.add32 (s.getReg rs1) imm ∧
    ((s.effAddr rs1 imm).toNat + 1 ≤ s.cfg.memSize →
      (∃ t, exec (.lb rd rs1 imm) s = .next t ∧
        OnlyRegAndPc s t rd (Spec.sext (s.mem.readByte (s.effAddr rs1 imm).toNat)) (Spec.add32 s.pc 4#32)) ∧
      (∃ t, exec (.lbu rd rs1 imm) s = .next t ∧
        OnlyRegAndPc s t rd (Spec.zext (s.mem.readByte (s.effAddr rs1 imm).toNat)) (Spec.add32 s.pc 4#32)))

/-- LH and LHU complete with the two bytes at any alignment, little-endian, sign- and zero-extended (43_loads.md
sections 1 and 2; misaligned access by decision D13, log 13). -/
def Obligations.HalfwordLoadsExtendTheTwoBytes : Prop :=
  ∀ (s : State) (rd rs1 : RegIdx) (imm : Word), (s.effAddr rs1 imm).toNat + 2 ≤ s.cfg.memSize →
    (∃ t, exec (.lh rd rs1 imm) s = .next t ∧
      OnlyRegAndPc s t rd
        (Spec.sext (s.mem.readByte ((s.effAddr rs1 imm).toNat + 1) ++ s.mem.readByte (s.effAddr rs1 imm).toNat
          : BitVec 16)) (Spec.add32 s.pc 4#32)) ∧
    (∃ t, exec (.lhu rd rs1 imm) s = .next t ∧
      OnlyRegAndPc s t rd
        (Spec.zext (s.mem.readByte ((s.effAddr rs1 imm).toNat + 1) ++ s.mem.readByte (s.effAddr rs1 imm).toNat
          : BitVec 16)) (Spec.add32 s.pc 4#32))

/-- LW completes with the four bytes at any alignment, little-endian, as they are (43_loads.md sections 1 and 2;
misaligned access by decision D13, log 13). -/
def Obligations.WordLoadTakesTheFourBytes : Prop :=
  ∀ (s : State) (rd rs1 : RegIdx) (imm : Word), (s.effAddr rs1 imm).toNat + 4 ≤ s.cfg.memSize →
    ∃ t, exec (.lw rd rs1 imm) s = .next t ∧
      OnlyRegAndPc s t rd
        (s.mem.readByte ((s.effAddr rs1 imm).toNat + 3) ++ s.mem.readByte ((s.effAddr rs1 imm).toNat + 2) ++
          s.mem.readByte ((s.effAddr rs1 imm).toNat + 1) ++ s.mem.readByte (s.effAddr rs1 imm).toNat)
        (Spec.add32 s.pc 4#32)

/-- A load with a byte at or beyond MEM_SIZE, into any register and `x0` too, faults the core and has no other effect
(43_loads.md section 1, 60_exceptions.md section 1; decisions D3 and D22). -/
def Obligations.LoadsBeyondTheMemoryFault : Prop :=
  ∀ (s : State) (rd rs1 : RegIdx) (imm : Word),
    (s.cfg.memSize < (s.effAddr rs1 imm).toNat + 1 →
      (∃ t, exec (.lb rd rs1 imm) s = .next t ∧ FaultedBy s t .load (s.effAddr rs1 imm)) ∧
      (∃ t, exec (.lbu rd rs1 imm) s = .next t ∧ FaultedBy s t .load (s.effAddr rs1 imm))) ∧
    (s.cfg.memSize < (s.effAddr rs1 imm).toNat + 2 →
      (∃ t, exec (.lh rd rs1 imm) s = .next t ∧ FaultedBy s t .load (s.effAddr rs1 imm)) ∧
      (∃ t, exec (.lhu rd rs1 imm) s = .next t ∧ FaultedBy s t .load (s.effAddr rs1 imm))) ∧
    (s.cfg.memSize < (s.effAddr rs1 imm).toNat + 4 →
      ∃ t, exec (.lw rd rs1 imm) s = .next t ∧ FaultedBy s t .load (s.effAddr rs1 imm))

/-- SB, SH and SW complete with the low 1, 2 or 4 bytes of `x[rs2]` at `x[rs1] + imm`, little-endian, at any alignment,
and change no other byte and no register (44_stores.md sections 1 and 2; decisions D10, D13). The premise on the memory
list is its canonical form, which the invariant keeps. -/
def Obligations.StoresWriteTheLowBytesAndNothingElse : Prop :=
  ∀ (s : State) (rs1 rs2 : RegIdx) (imm : Word), s.mem.wf →
    s.effAddr rs1 imm = Spec.add32 (s.getReg rs1) imm ∧
    ((s.effAddr rs1 imm).toNat + 1 ≤ s.cfg.memSize → ∃ t, exec (.sb rs1 rs2 imm) s = .next t ∧
      OnlyBytesAndPc s t (s.effAddr rs1 imm).toNat 1 (s.getReg rs2) (Spec.add32 s.pc 4#32)) ∧
    ((s.effAddr rs1 imm).toNat + 2 ≤ s.cfg.memSize → ∃ t, exec (.sh rs1 rs2 imm) s = .next t ∧
      OnlyBytesAndPc s t (s.effAddr rs1 imm).toNat 2 (s.getReg rs2) (Spec.add32 s.pc 4#32)) ∧
    ((s.effAddr rs1 imm).toNat + 4 ≤ s.cfg.memSize → ∃ t, exec (.sw rs1 rs2 imm) s = .next t ∧
      OnlyBytesAndPc s t (s.effAddr rs1 imm).toNat 4 (s.getReg rs2) (Spec.add32 s.pc 4#32))

/-- A store with a byte at or beyond MEM_SIZE faults the core and writes no byte at all (44_stores.md section 1,
20_memory.md section 3; decision D3). -/
def Obligations.StoresBeyondTheMemoryFault : Prop :=
  ∀ (s : State) (rs1 rs2 : RegIdx) (imm : Word),
    (s.cfg.memSize < (s.effAddr rs1 imm).toNat + 1 →
      ∃ t, exec (.sb rs1 rs2 imm) s = .next t ∧ FaultedBy s t .store (s.effAddr rs1 imm)) ∧
    (s.cfg.memSize < (s.effAddr rs1 imm).toNat + 2 →
      ∃ t, exec (.sh rs1 rs2 imm) s = .next t ∧ FaultedBy s t .store (s.effAddr rs1 imm)) ∧
    (s.cfg.memSize < (s.effAddr rs1 imm).toNat + 4 →
      ∃ t, exec (.sw rs1 rs2 imm) s = .next t ∧ FaultedBy s t .store (s.effAddr rs1 imm))

/-- The document's round trip (43_loads.md, LW): LW at the address of an SW returns the stored word, at any alignment,
and into `x0` nothing. -/
def Obligations.LoadingAStoredWordReturnsIt : Prop :=
  ∀ (s : State) (rs1 rs2 rd : RegIdx) (imm : Word), s.mem.wf →
    (s.effAddr rs1 imm).toNat + 4 ≤ s.cfg.memSize →
    ∃ t u, exec (.sw rs1 rs2 imm) s = .next t ∧ exec (.lw rd rs1 imm) t = .next u ∧
      u.getReg rd = if rd = 0#5 then 0#32 else s.getReg rs2

/-- 20_memory.md section 7 (marked as derived there): a store to the next instruction's address is seen by the very next
fetch, with no fence. -/
def Obligations.AStoreIsSeenByTheNextFetch : Prop :=
  ∀ (s : State) (rs1 rs2 : RegIdx) (imm : Word), s.mem.wf →
    s.effAddr rs1 imm = s.pc + 4#32 → (s.effAddr rs1 imm).toNat + 4 ≤ s.cfg.memSize →
    ∃ t, exec (.sw rs1 rs2 imm) s = .next t ∧ t.fetch = some (s.getReg rs2)

/-! ### Branches and jumps -/

/-- BEQ and BNE complete with `pc + imm_b` when all 32 bits are equal, respectively not, else `pc + 4`; nothing else
changes (45_branches.md sections 1 and 2; the sum wraps by decision D10, the target is unchecked by D14). -/
def Obligations.EqualityBranchesMovePcOnly : Prop :=
  ∀ (s : State) (rs1 rs2 : RegIdx) (imm : Word),
    (∃ t, exec (.beq rs1 rs2 imm) s = .next t ∧
      OnlyPc s t (if s.getReg rs1 = s.getReg rs2 then Spec.add32 s.pc imm else Spec.add32 s.pc 4#32)) ∧
    (∃ t, exec (.bne rs1 rs2 imm) s = .next t ∧
      OnlyPc s t (if s.getReg rs1 = s.getReg rs2 then Spec.add32 s.pc 4#32 else Spec.add32 s.pc imm))

/-- BLT and BGE complete with `pc + imm_b` or `pc + 4` by the signed readings, BLTU and BGEU by the unsigned ones;
nothing else changes (45_branches.md sections 1 and 2; operand order K7, decisions D10, D14). -/
def Obligations.OrderBranchesMovePcOnly : Prop :=
  ∀ (s : State) (rs1 rs2 : RegIdx) (imm : Word),
    (∃ t, exec (.blt rs1 rs2 imm) s = .next t ∧
      OnlyPc s t (if Spec.lts (s.getReg rs1) (s.getReg rs2) then Spec.add32 s.pc imm else Spec.add32 s.pc 4#32)) ∧
    (∃ t, exec (.bge rs1 rs2 imm) s = .next t ∧
      OnlyPc s t (if Spec.lts (s.getReg rs1) (s.getReg rs2) then Spec.add32 s.pc 4#32 else Spec.add32 s.pc imm)) ∧
    (∃ t, exec (.bltu rs1 rs2 imm) s = .next t ∧
      OnlyPc s t (if Spec.ltu (s.getReg rs1) (s.getReg rs2) then Spec.add32 s.pc imm else Spec.add32 s.pc 4#32)) ∧
    (∃ t, exec (.bgeu rs1 rs2 imm) s = .next t ∧
      OnlyPc s t (if Spec.ltu (s.getReg rs1) (s.getReg rs2) then Spec.add32 s.pc 4#32 else Spec.add32 s.pc imm))

/-- R170: JAL's encoding, and its effect: the link `pc + 4` in `x[rd]` and pc at `pc + imm_j`, unchecked, even when pc is;
a target beyond the memory shows as a fetch fault at the next step. -/
def Obligations.JalLinksAndJumpsRelative : Prop :=
  (∀ w : Word, w &&& 0x0000007F#32 = 0x0000006F#32 →
    decodeWord w = .ok (.jal (w.extractLsb' 7 5) (Spec.sext
      (w.extractLsb' 31 1 ++ w.extractLsb' 12 8 ++ w.extractLsb' 20 1 ++ w.extractLsb' 21 10 ++ 0#1 : BitVec 21)))) ∧
  (∀ (w : Word) rd imm, decodeWord w = .ok (.jal rd imm) → w &&& 0x0000007F#32 = 0x0000006F#32 ∧ imm.toNat % 2 = 0) ∧
  (∀ (s : State) (rd : RegIdx) (imm : Word), ∃ t, exec (.jal rd imm) s = .next t ∧
    OnlyRegAndPc s t rd (Spec.add32 s.pc 4#32) (Spec.add32 s.pc imm) ∧
    (imm.toNat % 2 = 0 → s.pc.toNat % 2 = 0 → t.pc.toNat % 2 = 0) ∧
    (s.runState = .running → s.cfg.memSize < (Spec.add32 s.pc imm).toNat + 4 →
      ∃ u, step t = .next u ∧ FaultedBy t u .fetch (Spec.add32 s.pc imm)))

/-- JALR completes with the link `pc + 4` in `x[rd]` and pc at `x[rs1] + imm_i`, read before the link is written, bit 0
kept or cleared by JALR_CLEAR_BIT0 (46_jumps.md; decisions D5, D6, D10; logs 1, 11). -/
def Obligations.JalrLinksAndJumpsToTheOldBase : Prop :=
  ∀ (s : State) (rd rs1 : RegIdx) (imm : Word),
    (s.cfg.jalrClearBit0 = false → ∃ t, exec (.jalr rd rs1 imm) s = .next t ∧
      OnlyRegAndPc s t rd (Spec.add32 s.pc 4#32) (Spec.add32 (s.getReg rs1) imm)) ∧
    (s.cfg.jalrClearBit0 = true → ∃ t, exec (.jalr rd rs1 imm) s = .next t ∧
      OnlyRegAndPc s t rd (Spec.add32 s.pc 4#32)
        (BitVec.ofNat 32 ((Spec.add32 (s.getReg rs1) imm).toNat / 2 * 2)))

/-! ### Upper immediates and system -/

/-- R180: LUI's encoding, and its effect: `imm_u` in `x[rd]` and pc + 4. -/
def Obligations.LuiWritesTheUpperImmediate : Prop :=
  (∀ w : Word, w &&& 0x0000007F#32 = 0x00000037#32 →
    decodeWord w = .ok (.lui (w.extractLsb' 7 5) (w &&& 0xFFFFF000#32))) ∧
  (∀ (w : Word) rd imm, decodeWord w = .ok (.lui rd imm) → w &&& 0x0000007F#32 = 0x00000037#32) ∧
  (∀ (s : State) (rd : RegIdx) (imm : Word), ∃ t, exec (.lui rd imm) s = .next t ∧
    OnlyRegAndPc s t rd imm (Spec.add32 s.pc 4#32))

/-- AUIPC completes with its own address plus `imm_u`, modulo 2^32 (47_upper_immediate.md; decision D10). -/
def Obligations.AuipcWritesItsAddressPlusTheImmediate : Prop :=
  ∀ (s : State) (rd : RegIdx) (imm : Word), ∃ t, exec (.auipc rd imm) s = .next t ∧
    OnlyRegAndPc s t rd (Spec.add32 s.pc imm) (Spec.add32 s.pc 4#32)

/-- ECALL is the words of match 0x00000073, mask 0xFFF0707F, and moves pc by 4 and does nothing else (48_system.md; that
`rd` and `rs1` are not examined is decision D9, log 8). -/
def Obligations.EcallOnlyAdvancesPc : Prop :=
  (∀ w : Word, decodeWord w = .ok .ecall ↔ w &&& 0xFFF0707F#32 = 0x00000073#32) ∧
  (∀ s : State, ∃ t, exec .ecall s = .next t ∧ OnlyPc s t (Spec.add32 s.pc 4#32))

/-- EBREAK is the words of match 0x00100073, mask 0xFFF0707F, and halts the core with pc at its own address and nothing
else changed, nothing reported (48_system.md; the unexamined fields are decision D9, log 8). -/
def Obligations.EbreakHaltsAtItsOwnAddress : Prop :=
  (∀ w : Word, decodeWord w = .ok .ebreak ↔ w &&& 0xFFF0707F#32 = 0x00100073#32) ∧
  (∀ s : State, ∃ t, exec .ebreak s = .next t ∧ t.runState = .halted ∧ SameRegs s t ∧ t.pc = s.pc ∧
    SameMemory s t ∧ t.log = s.log ∧ t.cfg = s.cfg)

/-! ### Whole-machine rules -/

/-- No instruction is refused and none stops the machine by a fault of the interface: every one answers a next state in
every state (60_exceptions.md section 1: an instruction "either completes, or it is reported and skipped, or it stops
the core", all effects on the state; log 4). -/
def Obligations.EveryInstructionAnswersANextState : Prop :=
  ∀ (i : Instr) (s : State), ∃ t, exec i s = .next t

/-- R21: `x[0]` reads as 0 always. R22: an instruction whose destination is `x0` leaves every register as it was, since
the write is discarded (the spec's decision D15, log 6). -/
def Obligations.RegisterZeroReadsZero : Prop :=
  (∀ s : State, s.getReg 0#5 = 0#32) ∧
  (∀ (i : Instr) (s t : State), exec i s = .next t →
    t.getReg 0#5 = 0#32 ∧ (i.dest = some 0#5 → SameRegs s t))

/-- Only the register an instruction's rule names as its destination can change (10_state.md section 1, marked as derived
there): stores, branches, ECALL, EBREAK and the unimplemented words write none. -/
def Obligations.OnlyTheDestinationRegisterChanges : Prop :=
  (∀ (i : Instr) (s t : State), exec i s = .next t → ∀ r, i.dest ≠ some r → t.getReg r = s.getReg r) ∧
  (∀ (s t : State) (w : Word) (reason : Reject), s.fetch = some w → decodeWord w = .error reason →
    step s = .next t → SameRegs s t)

/-- Only a store changes memory (40_cycle.md: "memory mutation (stores only)"), and a step that runs no store leaves the
memory the same data. -/
def Obligations.OnlyStoresChangeMemory : Prop :=
  (∀ (i : Instr) (s t : State), exec i s = .next t → i.stores = none → t.mem = s.mem) ∧
  (∀ s t : State, step s = .next t →
    (∀ w i, s.fetch = some w → decodeWord w = .ok i → i.stores = none) → t.mem = s.mem)

/-- EBREAK is the only way into HALTED (10_state.md section 3): a step ends HALTED exactly when the word it fetched is
an EBREAK. The three-valued run_state is the spec's (decisions D3, D9). -/
def Obligations.OnlyEbreakHalts : Prop :=
  ∀ s t : State, step s = .next t →
    (t.runState = .halted ↔ ∃ w, s.fetch = some w ∧ w &&& 0xFFF0707F#32 = 0x00100073#32)

/-- The report log is append-only, a step appends at most one record, and the configuration never changes
(10_state.md section 5, 60_exceptions.md section 3; decisions D18, D21; log 1). -/
def Obligations.TheLogGrowsByAtMostOneRecord : Prop :=
  ∀ s t : State, step s = .next t →
    t.cfg = s.cfg ∧ ∃ records, records.length ≤ 1 ∧ t.log = s.log ++ records

/-- A register an instruction does not name as a source is not read (10_state.md section 1, marked as derived there):
changing it beforehand changes nothing in what the instruction does, except that the register itself keeps the changed
value, or is overwritten as the destination. -/
def Obligations.RegistersNotNamedAsSourcesAreNotRead : Prop :=
  ∀ (i : Instr) (s : State) (r : RegIdx) (v : Word), r ∉ i.sources →
    ∃ t t', exec i s = .next t ∧ exec i (s.setReg r v) = .next t' ∧
      (t' = t.setReg r v ∨ (i.dest = some r ∧ t' = t))

/-- With JALR_CLEAR_BIT0 true every next pc is even when pc is: branch and JAL offsets are even, JALR's bit 0 is cleared
and every other instruction adds 4 (10_state.md section 2; decisions D5, D14). -/
def Obligations.PcStaysEvenWhenJalrClearsBitZero : Prop :=
  ∀ s t : State, s.cfg.jalrClearBit0 = true → s.pc.toNat % 2 = 0 → step s = .next t → t.pc.toNat % 2 = 0

/-- The two-instruction LI of 30_encoding.md section 7 (an assembler's convention, K9, log 18): both instructions are well
formed, and LUI then ADDI leave the 32-bit constant in the register and pc + 8. -/
def Obligations.LuiThenAddiBuildsAnyConstant : Prop :=
  ∀ (s : State) (rd : RegIdx) (imm : Word),
    (pseudoLiWide rd imm).1.wf = true ∧ (pseudoLiWide rd imm).2.wf = true ∧
    ∃ t u, exec (pseudoLiWide rd imm).1 s = .next t ∧ exec (pseudoLiWide rd imm).2 t = .next u ∧
      OnlyRegAndPc s u rd imm (Spec.add32 s.pc 8#32)
end

