-- ==== Sys2Proof/Laws/Decode.lean ====
section
/-! SUPPORT. What each field of an encoded word is, format by format (R61), and what the reconstructor gives back from
the scattered fields (R81). -/

namespace Sys2Proof

section
variable (f7 : BitVec 7) (rs2 rs1 : RegIdx) (f3 : BitVec 3) (rd : RegIdx) (op : BitVec 7)

@[simp] theorem opcodeOf_encodeR : opcodeOf (encodeR f7 rs2 rs1 f3 rd op) = op := by
  apply BitVec.eq_of_getLsbD_eq
  intro i hi
  simp only [opcodeOf, encodeR, BitVec.getLsbD_extractLsb', BitVec.getLsbD_append]
  interval_cases i <;> simp

@[simp] theorem rdOf_encodeR : rdOf (encodeR f7 rs2 rs1 f3 rd op) = rd := by
  apply BitVec.eq_of_getLsbD_eq
  intro i hi
  simp only [rdOf, encodeR, BitVec.getLsbD_extractLsb', BitVec.getLsbD_append]
  interval_cases i <;> simp

@[simp] theorem funct3Of_encodeR : funct3Of (encodeR f7 rs2 rs1 f3 rd op) = f3 := by
  apply BitVec.eq_of_getLsbD_eq
  intro i hi
  simp only [funct3Of, encodeR, BitVec.getLsbD_extractLsb', BitVec.getLsbD_append]
  interval_cases i <;> simp

@[simp] theorem rs1Of_encodeR : rs1Of (encodeR f7 rs2 rs1 f3 rd op) = rs1 := by
  apply BitVec.eq_of_getLsbD_eq
  intro i hi
  simp only [rs1Of, encodeR, BitVec.getLsbD_extractLsb', BitVec.getLsbD_append]
  interval_cases i <;> simp

@[simp] theorem rs2Of_encodeR : rs2Of (encodeR f7 rs2 rs1 f3 rd op) = rs2 := by
  apply BitVec.eq_of_getLsbD_eq
  intro i hi
  simp only [rs2Of, encodeR, BitVec.getLsbD_extractLsb', BitVec.getLsbD_append]
  interval_cases i <;> simp

@[simp] theorem shamtOf_encodeR : shamtOf (encodeR f7 rs2 rs1 f3 rd op) = rs2 := by
  apply BitVec.eq_of_getLsbD_eq
  intro i hi
  simp only [shamtOf, encodeR, BitVec.getLsbD_extractLsb', BitVec.getLsbD_append]
  interval_cases i <;> simp

@[simp] theorem funct7Of_encodeR : funct7Of (encodeR f7 rs2 rs1 f3 rd op) = f7 := by
  apply BitVec.eq_of_getLsbD_eq
  intro i hi
  simp only [funct7Of, encodeR, BitVec.getLsbD_extractLsb', BitVec.getLsbD_append]
  interval_cases i <;> simp

end

section
variable (imm : Word) (rs1 : RegIdx) (f3 : BitVec 3) (rd : RegIdx) (op : BitVec 7)

@[simp] theorem opcodeOf_encodeI : opcodeOf (encodeI imm rs1 f3 rd op) = op := by
  apply BitVec.eq_of_getLsbD_eq
  intro i hi
  simp only [opcodeOf, encodeI, BitVec.getLsbD_extractLsb', BitVec.getLsbD_append]
  interval_cases i <;> simp

@[simp] theorem rdOf_encodeI : rdOf (encodeI imm rs1 f3 rd op) = rd := by
  apply BitVec.eq_of_getLsbD_eq
  intro i hi
  simp only [rdOf, encodeI, BitVec.getLsbD_extractLsb', BitVec.getLsbD_append]
  interval_cases i <;> simp

@[simp] theorem funct3Of_encodeI : funct3Of (encodeI imm rs1 f3 rd op) = f3 := by
  apply BitVec.eq_of_getLsbD_eq
  intro i hi
  simp only [funct3Of, encodeI, BitVec.getLsbD_extractLsb', BitVec.getLsbD_append]
  interval_cases i <;> simp

@[simp] theorem rs1Of_encodeI : rs1Of (encodeI imm rs1 f3 rd op) = rs1 := by
  apply BitVec.eq_of_getLsbD_eq
  intro i hi
  simp only [rs1Of, encodeI, BitVec.getLsbD_extractLsb', BitVec.getLsbD_append]
  interval_cases i <;> simp

@[simp] theorem immI_encodeI : immI (encodeI imm rs1 f3 rd op) = (imm.extractLsb' 0 12).signExtend 32 := by
  unfold immI
  congr 1
  apply BitVec.eq_of_getLsbD_eq
  intro i hi
  simp only [encodeI, BitVec.getLsbD_extractLsb', BitVec.getLsbD_append]
  interval_cases i <;> simp

@[simp] theorem sysFieldOf_encodeI : sysFieldOf (encodeI imm rs1 f3 rd op) = imm.extractLsb' 0 12 := by
  apply BitVec.eq_of_getLsbD_eq
  intro i hi
  simp only [sysFieldOf, encodeI, BitVec.getLsbD_extractLsb', BitVec.getLsbD_append]
  interval_cases i <;> simp

end

section
variable (imm : Word) (rs2 rs1 : RegIdx) (f3 : BitVec 3) (op : BitVec 7)

@[simp] theorem opcodeOf_encodeS : opcodeOf (encodeS imm rs2 rs1 f3 op) = op := by
  apply BitVec.eq_of_getLsbD_eq
  intro i hi
  simp only [opcodeOf, encodeS, BitVec.getLsbD_extractLsb', BitVec.getLsbD_append]
  interval_cases i <;> simp

@[simp] theorem funct3Of_encodeS : funct3Of (encodeS imm rs2 rs1 f3 op) = f3 := by
  apply BitVec.eq_of_getLsbD_eq
  intro i hi
  simp only [funct3Of, encodeS, BitVec.getLsbD_extractLsb', BitVec.getLsbD_append]
  interval_cases i <;> simp

@[simp] theorem rs1Of_encodeS : rs1Of (encodeS imm rs2 rs1 f3 op) = rs1 := by
  apply BitVec.eq_of_getLsbD_eq
  intro i hi
  simp only [rs1Of, encodeS, BitVec.getLsbD_extractLsb', BitVec.getLsbD_append]
  interval_cases i <;> simp

@[simp] theorem rs2Of_encodeS : rs2Of (encodeS imm rs2 rs1 f3 op) = rs2 := by
  apply BitVec.eq_of_getLsbD_eq
  intro i hi
  simp only [rs2Of, encodeS, BitVec.getLsbD_extractLsb', BitVec.getLsbD_append]
  interval_cases i <;> simp

@[simp] theorem immS_encodeS : immS (encodeS imm rs2 rs1 f3 op) = (imm.extractLsb' 0 12).signExtend 32 := by
  unfold immS
  congr 1
  apply BitVec.eq_of_getLsbD_eq
  intro i hi
  simp only [encodeS, BitVec.getLsbD_extractLsb', BitVec.getLsbD_append]
  interval_cases i <;> simp

end

section
variable (imm : Word) (rs2 rs1 : RegIdx) (f3 : BitVec 3) (op : BitVec 7)

@[simp] theorem opcodeOf_encodeB : opcodeOf (encodeB imm rs2 rs1 f3 op) = op := by
  apply BitVec.eq_of_getLsbD_eq
  intro i hi
  simp only [opcodeOf, encodeB, BitVec.getLsbD_extractLsb', BitVec.getLsbD_append]
  interval_cases i <;> simp

@[simp] theorem funct3Of_encodeB : funct3Of (encodeB imm rs2 rs1 f3 op) = f3 := by
  apply BitVec.eq_of_getLsbD_eq
  intro i hi
  simp only [funct3Of, encodeB, BitVec.getLsbD_extractLsb', BitVec.getLsbD_append]
  interval_cases i <;> simp

@[simp] theorem rs1Of_encodeB : rs1Of (encodeB imm rs2 rs1 f3 op) = rs1 := by
  apply BitVec.eq_of_getLsbD_eq
  intro i hi
  simp only [rs1Of, encodeB, BitVec.getLsbD_extractLsb', BitVec.getLsbD_append]
  interval_cases i <;> simp

@[simp] theorem rs2Of_encodeB : rs2Of (encodeB imm rs2 rs1 f3 op) = rs2 := by
  apply BitVec.eq_of_getLsbD_eq
  intro i hi
  simp only [rs2Of, encodeB, BitVec.getLsbD_extractLsb', BitVec.getLsbD_append]
  interval_cases i <;> simp

/-- The B-type placement gives back every bit of the offset but bit 0. -/
@[simp] theorem immB_encodeB :
    immB (encodeB imm rs2 rs1 f3 op) = (imm.extractLsb' 1 12 ++ 0#1 : BitVec 13).signExtend 32 := by
  unfold immB
  congr 1
  apply BitVec.eq_of_getLsbD_eq
  intro i hi
  simp only [encodeB, BitVec.getLsbD_extractLsb', BitVec.getLsbD_append]
  interval_cases i <;> simp

end

section
variable (imm : Word) (rd : RegIdx) (op : BitVec 7)

@[simp] theorem opcodeOf_encodeU : opcodeOf (encodeU imm rd op) = op := by
  apply BitVec.eq_of_getLsbD_eq
  intro i hi
  simp only [opcodeOf, encodeU, BitVec.getLsbD_extractLsb', BitVec.getLsbD_append]
  interval_cases i <;> simp

@[simp] theorem rdOf_encodeU : rdOf (encodeU imm rd op) = rd := by
  apply BitVec.eq_of_getLsbD_eq
  intro i hi
  simp only [rdOf, encodeU, BitVec.getLsbD_extractLsb', BitVec.getLsbD_append]
  interval_cases i <;> simp

@[simp] theorem immU_encodeU : immU (encodeU imm rd op) = imm.extractLsb' 12 20 ++ 0#12 := by
  unfold immU
  congr 1
  apply BitVec.eq_of_getLsbD_eq
  intro i hi
  simp only [encodeU, BitVec.getLsbD_extractLsb', BitVec.getLsbD_append]
  interval_cases i <;> simp

end

section
variable (imm : Word) (rd : RegIdx) (op : BitVec 7)

@[simp] theorem opcodeOf_encodeJ : opcodeOf (encodeJ imm rd op) = op := by
  apply BitVec.eq_of_getLsbD_eq
  intro i hi
  simp only [opcodeOf, encodeJ, BitVec.getLsbD_extractLsb', BitVec.getLsbD_append]
  interval_cases i <;> simp

@[simp] theorem rdOf_encodeJ : rdOf (encodeJ imm rd op) = rd := by
  apply BitVec.eq_of_getLsbD_eq
  intro i hi
  simp only [rdOf, encodeJ, BitVec.getLsbD_extractLsb', BitVec.getLsbD_append]
  interval_cases i <;> simp

/-- The J-type placement gives back every bit of the offset but bit 0. -/
@[simp] theorem immJ_encodeJ :
    immJ (encodeJ imm rd op) = (imm.extractLsb' 1 20 ++ 0#1 : BitVec 21).signExtend 32 := by
  unfold immJ
  congr 1
  apply BitVec.eq_of_getLsbD_eq
  intro i hi
  simp only [encodeJ, BitVec.getLsbD_extractLsb', BitVec.getLsbD_append]
  interval_cases i <;> simp

end

/-! ### The fields of a word, put back in their places, are the word -/

theorem encodeR_fields (w : Word) :
    encodeR (funct7Of w) (rs2Of w) (rs1Of w) (funct3Of w) (rdOf w) (opcodeOf w) = w := by
  apply BitVec.eq_of_getLsbD_eq
  intro i hi
  simp only [encodeR, funct7Of, rs2Of, rs1Of, funct3Of, rdOf, opcodeOf, BitVec.getLsbD_append, BitVec.getLsbD_extractLsb']
  interval_cases i <;> simp

theorem encodeShift_fields (w : Word) :
    encodeR (funct7Of w) (shamtOf w) (rs1Of w) (funct3Of w) (rdOf w) (opcodeOf w) = w := by
  apply BitVec.eq_of_getLsbD_eq
  intro i hi
  simp only [encodeR, funct7Of, shamtOf, rs1Of, funct3Of, rdOf, opcodeOf, BitVec.getLsbD_append, BitVec.getLsbD_extractLsb']
  interval_cases i <;> simp

theorem encodeI_fields (w : Word) :
    encodeI (immI w) (rs1Of w) (funct3Of w) (rdOf w) (opcodeOf w) = w := by
  apply BitVec.eq_of_getLsbD_eq
  intro i hi
  simp only [encodeI, immI, rs1Of, funct3Of, rdOf, opcodeOf, BitVec.getLsbD_append, BitVec.getLsbD_extractLsb', BitVec.getLsbD_signExtend]
  interval_cases i <;> simp

theorem encodeS_fields (w : Word) :
    encodeS (immS w) (rs2Of w) (rs1Of w) (funct3Of w) (opcodeOf w) = w := by
  apply BitVec.eq_of_getLsbD_eq
  intro i hi
  simp only [encodeS, immS, rs2Of, rs1Of, funct3Of, opcodeOf, BitVec.getLsbD_append, BitVec.getLsbD_extractLsb', BitVec.getLsbD_signExtend]
  interval_cases i <;> simp

theorem encodeB_fields (w : Word) :
    encodeB (immB w) (rs2Of w) (rs1Of w) (funct3Of w) (opcodeOf w) = w := by
  apply BitVec.eq_of_getLsbD_eq
  intro i hi
  simp only [encodeB, immB, rs2Of, rs1Of, funct3Of, opcodeOf, BitVec.getLsbD_append, BitVec.getLsbD_extractLsb', BitVec.getLsbD_signExtend]
  interval_cases i <;> simp

theorem encodeU_fields (w : Word) :
    encodeU (immU w) (rdOf w) (opcodeOf w) = w := by
  apply BitVec.eq_of_getLsbD_eq
  intro i hi
  simp only [encodeU, immU, rdOf, opcodeOf, BitVec.getLsbD_append, BitVec.getLsbD_extractLsb']
  interval_cases i <;> simp

theorem encodeJ_fields (w : Word) :
    encodeJ (immJ w) (rdOf w) (opcodeOf w) = w := by
  apply BitVec.eq_of_getLsbD_eq
  intro i hi
  simp only [encodeJ, immJ, rdOf, opcodeOf, BitVec.getLsbD_append, BitVec.getLsbD_extractLsb', BitVec.getLsbD_signExtend]
  interval_cases i <;> simp

/-! ### A well-formed immediate is what its bits extend to -/

/-- A word whose signed reading fits in `n + 1` bits is the sign extension of its low `n + 1` bits. -/
theorem signExtend_low {imm : Word} {n : Nat} (hn : n < 32) (h1 : -(2 ^ n : Int) ≤ imm.toInt)
    (h2 : imm.toInt < 2 ^ n) : (imm.extractLsb' 0 (n + 1)).signExtend 32 = imm := by
  apply BitVec.eq_of_toInt_eq
  rw [BitVec.toInt_signExtend_of_le (by omega), BitVec.toInt_extractLsb', Nat.shiftRight_zero]
  have hd : ((2 ^ (n + 1) : Nat) : Int) ∣ ((2 ^ 32 : Nat) : Int) :=
    Int.natCast_dvd_natCast.2 (Nat.pow_dvd_pow 2 (by omega))
  rw [← Int.bmod_bmod_of_dvd (Int.natCast_dvd_natCast.1 hd), ← BitVec.toInt_eq_toNat_bmod]
  apply Int.bmod_eq_of_le <;> push_cast <;> rw [pow_succ] <;> omega

/-- Joining the bits above bit 0 with a zero bit gives back the low bits of an even word. -/
theorem even_low {imm : Word} {n : Nat} (he : imm.toInt % 2 = 0) :
    (imm.extractLsb' 1 n ++ 0#1 : BitVec (n + 1)) = imm.extractLsb' 0 (n + 1) := by
  have h0 : imm.getLsbD 0 = false := by
    rw [BitVec.toInt_eq_toNat_cond] at he
    have : imm.toNat % 2 = 0 := by split at he <;> omega
    simpa [BitVec.getLsbD, Nat.testBit_zero] using this
  apply BitVec.eq_of_getLsbD_eq
  intro i hi
  rw [BitVec.getLsbD_append]
  rcases i with _ | i
  · rw [BitVec.getLsbD_eq_getElem (by omega)] at h0
    simpa using h0
  · simp only [BitVec.getLsbD_extractLsb']
    simp [hi, Nat.add_comm, show i < n by omega]

theorem fitsImm12_spec {imm : Word} (h : fitsImm12 imm = true) :
    (imm.extractLsb' 0 12).signExtend 32 = imm := by
  simp only [fitsImm12, decide_eq_true_eq] at h
  exact signExtend_low (n := 11) (by omega) (by omega) (by omega)

theorem fitsImmB_spec {imm : Word} (h : fitsImmB imm = true) :
    (imm.extractLsb' 1 12 ++ 0#1 : BitVec 13).signExtend 32 = imm := by
  simp only [fitsImmB, decide_eq_true_eq] at h
  rw [even_low h.2.2]
  exact signExtend_low (n := 12) (by omega) (by omega) (by omega)

theorem fitsImmJ_spec {imm : Word} (h : fitsImmJ imm = true) :
    (imm.extractLsb' 1 20 ++ 0#1 : BitVec 21).signExtend 32 = imm := by
  simp only [fitsImmJ, decide_eq_true_eq] at h
  rw [even_low h.2.2]
  exact signExtend_low (n := 20) (by omega) (by omega) (by omega)

theorem fitsImmU_spec {imm : Word} (h : fitsImmU imm = true) : imm.extractLsb' 12 20 ++ 0#12 = imm := by
  simp only [fitsImmU, decide_eq_true_eq] at h
  apply BitVec.eq_of_toNat_eq
  rw [BitVec.toNat_append, BitVec.extractLsb'_toNat, Nat.shiftRight_eq_div_pow]
  have := imm.isLt
  simp only [BitVec.toNat_ofNat, Nat.zero_mod, Nat.or_zero, Nat.shiftLeft_eq]
  omega

/-- Every sign-extended 12-bit value fits (R64, R65). -/
theorem fitsImm12_signExtend (v : BitVec 12) : fitsImm12 (v.signExtend 32) = true := by
  simp only [fitsImm12, decide_eq_true_eq, BitVec.toInt_signExtend_of_le (show 12 ≤ 32 by omega)]
  have h1 := BitVec.le_toInt v
  have h2 := BitVec.toInt_lt (x := v)
  omega

theorem even_toInt_append (n : Nat) (hn : 0 < n) (v : BitVec n) : (v ++ 0#1 : BitVec (n + 1)).toInt % 2 = 0 := by
  rw [BitVec.toInt_append]
  simp [Nat.ne_of_gt hn]

/-- Every sign-extended even 13-bit value fits (R66). -/
theorem fitsImmB_signExtend (v : BitVec 12) : fitsImmB ((v ++ 0#1 : BitVec 13).signExtend 32) = true := by
  simp only [fitsImmB, decide_eq_true_eq, BitVec.toInt_signExtend_of_le (show 13 ≤ 32 by omega)]
  have h1 := BitVec.le_toInt (v ++ 0#1 : BitVec 13)
  have h2 := BitVec.toInt_lt (x := (v ++ 0#1 : BitVec 13))
  have h3 := even_toInt_append 12 (by omega) v
  omega

/-- Every sign-extended even 21-bit value fits (R68). -/
theorem fitsImmJ_signExtend (v : BitVec 20) : fitsImmJ ((v ++ 0#1 : BitVec 21).signExtend 32) = true := by
  simp only [fitsImmJ, decide_eq_true_eq, BitVec.toInt_signExtend_of_le (show 21 ≤ 32 by omega)]
  have h1 := BitVec.le_toInt (v ++ 0#1 : BitVec 21)
  have h2 := BitVec.toInt_lt (x := (v ++ 0#1 : BitVec 21))
  have h3 := even_toInt_append 20 (by omega) v
  omega

end Sys2Proof
end

