-- ==== Sys2Proof/Laws/State.lean ====
section
/-! SUPPORT. One lemma per field per update of the state, true by rfl, and the laws of the register file. -/

namespace Sys2Proof.Machine

variable (s : State) (t : Word) (m : Memory) (q : RunState) (r : Report)

@[simp] theorem setPc_regs : (s.setPc t).regs = s.regs := rfl
@[simp] theorem setPc_pc : (s.setPc t).pc = t := rfl
@[simp] theorem setPc_runState : (s.setPc t).runState = s.runState := rfl
@[simp] theorem setPc_mem : (s.setPc t).mem = s.mem := rfl
@[simp] theorem setPc_log : (s.setPc t).log = s.log := rfl
@[simp] theorem setPc_cfg : (s.setPc t).cfg = s.cfg := rfl

@[simp] theorem setMem_regs : (s.setMem m).regs = s.regs := rfl
@[simp] theorem setMem_pc : (s.setMem m).pc = s.pc := rfl
@[simp] theorem setMem_runState : (s.setMem m).runState = s.runState := rfl
@[simp] theorem setMem_mem : (s.setMem m).mem = m := rfl
@[simp] theorem setMem_log : (s.setMem m).log = s.log := rfl
@[simp] theorem setMem_cfg : (s.setMem m).cfg = s.cfg := rfl

@[simp] theorem setRunState_regs : (s.setRunState q).regs = s.regs := rfl
@[simp] theorem setRunState_pc : (s.setRunState q).pc = s.pc := rfl
@[simp] theorem setRunState_runState : (s.setRunState q).runState = q := rfl
@[simp] theorem setRunState_mem : (s.setRunState q).mem = s.mem := rfl
@[simp] theorem setRunState_log : (s.setRunState q).log = s.log := rfl
@[simp] theorem setRunState_cfg : (s.setRunState q).cfg = s.cfg := rfl

@[simp] theorem report_regs : (s.report r).regs = s.regs := rfl
@[simp] theorem report_pc : (s.report r).pc = s.pc := rfl
@[simp] theorem report_runState : (s.report r).runState = s.runState := rfl
@[simp] theorem report_mem : (s.report r).mem = s.mem := rfl
@[simp] theorem report_log : (s.report r).log = s.log ++ [r] := rfl
@[simp] theorem report_cfg : (s.report r).cfg = s.cfg := rfl

variable (i j : RegIdx) (v : Word)

@[simp] theorem setReg_pc : (s.setReg i v).pc = s.pc := by unfold State.setReg; split <;> rfl
@[simp] theorem setReg_runState : (s.setReg i v).runState = s.runState := by unfold State.setReg; split <;> rfl
@[simp] theorem setReg_mem : (s.setReg i v).mem = s.mem := by unfold State.setReg; split <;> rfl
@[simp] theorem setReg_log : (s.setReg i v).log = s.log := by unfold State.setReg; split <;> rfl
@[simp] theorem setReg_cfg : (s.setReg i v).cfg = s.cfg := by unfold State.setReg; split <;> rfl

@[simp] theorem advance_regs : s.advance.regs = s.regs := rfl
@[simp] theorem advance_pc : s.advance.pc = s.pc + 4#32 := rfl
@[simp] theorem advance_runState : s.advance.runState = s.runState := rfl
@[simp] theorem advance_mem : s.advance.mem = s.mem := rfl
@[simp] theorem advance_log : s.advance.log = s.log := rfl
@[simp] theorem advance_cfg : s.advance.cfg = s.cfg := rfl

/-- Two states with the same slots read the same registers. -/
theorem getReg_congr {s t : State} (h : t.regs = s.regs) (i : RegIdx) : t.getReg i = s.getReg i := by
  unfold State.getReg; simp only [h]

@[simp] theorem getReg_setPc : (s.setPc t).getReg i = s.getReg i := getReg_congr rfl i
@[simp] theorem getReg_setMem : (s.setMem m).getReg i = s.getReg i := getReg_congr rfl i
@[simp] theorem getReg_setRunState : (s.setRunState q).getReg i = s.getReg i := getReg_congr rfl i
@[simp] theorem getReg_report : (s.report r).getReg i = s.getReg i := getReg_congr rfl i
@[simp] theorem getReg_advance : s.advance.getReg i = s.getReg i := getReg_congr rfl i

/-- R21. -/
@[simp] theorem getReg_zero : s.getReg 0#5 = 0#32 := by simp [State.getReg]

/-- R22: what every register reads as after a write. -/
theorem getReg_setReg :
    (s.setReg i v).getReg j = if j = 0#5 then 0#32 else if j = i then v else s.getReg j := by
  by_cases hj : j = 0#5
  · simp [hj]
  by_cases hi : i = 0#5
  · have hji : j ≠ i := by rw [hi]; exact hj
    simp [State.setReg, hi, hj]
  simp only [State.setReg, State.getReg, hi, hj, if_false]
  rw [Vector.getElem_set]
  have hi' : i.toNat ≠ 0 := fun h => hi (by apply BitVec.eq_of_toNat_eq; simpa using h)
  have hj' : j.toNat ≠ 0 := fun h => hj (by apply BitVec.eq_of_toNat_eq; simpa using h)
  by_cases hij : j = i
  · simp [hij]
  · have : i.toNat - 1 ≠ j.toNat - 1 := by
      intro h; apply hij; apply BitVec.eq_of_toNat_eq; omega
    simp [this, hij]

/-- R22: a write to index 0 changes nothing. -/
@[simp] theorem setReg_zero : s.setReg 0#5 v = s := by simp [State.setReg]

/-- The registers, read one by one, are the slots: two states that read alike have the same slots. -/
theorem regs_eq_of_getReg_eq {s t : State} (h : ∀ i, t.getReg i = s.getReg i) : t.regs = s.regs := by
  apply Vector.ext
  intro k hk
  have h' := h (BitVec.ofNat 5 (k + 1))
  have hn : (BitVec.ofNat 5 (k + 1)).toNat = k + 1 := by simp; omega
  have hz : BitVec.ofNat 5 (k + 1) ≠ 0#5 := fun e => by
    have := congrArg BitVec.toNat e; rw [hn] at this; simp at this
  simp only [State.getReg, hz, if_false, hn] at h'
  simpa using h'

/-! The events. -/

variable (k : AccessKind) (a w : Word)

@[simp] theorem raiseMemoryFault_regs : (s.raiseMemoryFault k a).regs = s.regs := rfl
@[simp] theorem raiseMemoryFault_pc : (s.raiseMemoryFault k a).pc = s.pc := rfl
@[simp] theorem raiseMemoryFault_runState : (s.raiseMemoryFault k a).runState = .faulted := rfl
@[simp] theorem raiseMemoryFault_mem : (s.raiseMemoryFault k a).mem = s.mem := rfl
@[simp] theorem raiseMemoryFault_log :
    (s.raiseMemoryFault k a).log = s.log ++ [.memoryFault k a s.pc] := rfl
@[simp] theorem raiseMemoryFault_cfg : (s.raiseMemoryFault k a).cfg = s.cfg := rfl
@[simp] theorem getReg_raiseMemoryFault : (s.raiseMemoryFault k a).getReg i = s.getReg i := getReg_congr rfl i

@[simp] theorem halt_regs : s.halt.regs = s.regs := rfl
@[simp] theorem halt_pc : s.halt.pc = s.pc := rfl
@[simp] theorem halt_runState : s.halt.runState = .halted := rfl
@[simp] theorem halt_mem : s.halt.mem = s.mem := rfl
@[simp] theorem halt_log : s.halt.log = s.log := rfl
@[simp] theorem halt_cfg : s.halt.cfg = s.cfg := rfl
@[simp] theorem getReg_halt : s.halt.getReg i = s.getReg i := getReg_congr rfl i

@[simp] theorem unimplemented_regs : (s.unimplemented w).regs = s.regs := by
  unfold State.unimplemented; split <;> rfl
@[simp] theorem unimplemented_mem : (s.unimplemented w).mem = s.mem := by
  unfold State.unimplemented; split <;> rfl
@[simp] theorem unimplemented_log : (s.unimplemented w).log = s.log ++ [.unimplemented s.pc w] := by
  unfold State.unimplemented; split <;> rfl
@[simp] theorem unimplemented_cfg : (s.unimplemented w).cfg = s.cfg := by
  unfold State.unimplemented; split <;> rfl
@[simp] theorem getReg_unimplemented : (s.unimplemented w).getReg i = s.getReg i :=
  getReg_congr (unimplemented_regs s w) i

/-- UNIMP under `continue` (R95). -/
theorem unimplemented_continue (h : s.cfg.unimpPolicy = .logAndContinue) :
    s.unimplemented w = (s.report (.unimplemented s.pc w)).advance := by
  unfold State.unimplemented; rw [h]

/-- UNIMP under `abort` (R95). -/
theorem unimplemented_abort (h : s.cfg.unimpPolicy = .logAndAbort) :
    s.unimplemented w = (s.report (.unimplemented s.pc w)).setRunState .faulted := by
  unfold State.unimplemented; rw [h]

end Sys2Proof.Machine
end

