-- ==== Sys2Proof/Laws/Memory.lean ====
section
/-! SUPPORT. The laws of the memory list: what every byte reads as after a write, and that every operation keeps the
canonical form and the address range. -/

namespace Sys2Proof.Machine

@[simp] theorem readByte_nil (a : Nat) : Memory.readByte [] a = unlistedByte := rfl

theorem readByte_cons (k : Nat) (b : Byte) (m : Memory) (a : Nat) :
    Memory.readByte ((k, b) :: m) a = if k = a then b else Memory.readByte m a := rfl

@[simp] theorem wf_nil : Memory.wf [] := by simp [Memory.wf]

theorem wf_cons (k : Nat) (b : Byte) (m : Memory) :
    Memory.wf ((k, b) :: m) ↔ (∀ c ∈ m, k < c.1) ∧ b ≠ unlistedByte ∧ Memory.wf m := by
  simp only [Memory.wf, List.pairwise_cons, List.mem_cons, forall_eq_or_imp]
  tauto

/-- A byte below every listed address is unlisted. -/
theorem readByte_below {m : Memory} {a : Nat} (h : ∀ c ∈ m, a < c.1) : m.readByte a = unlistedByte := by
  induction m with
  | nil => rfl
  | cons c m ih =>
    obtain ⟨k, b⟩ := c
    have hk : a < k := h (k, b) (by simp)
    rw [readByte_cons, if_neg (by omega), ih (fun c hc => h c (by simp [hc]))]

/-- What is listed after a one-byte write. -/
theorem mem_writeByte {m : Memory} {a : Nat} {v : Byte} {c : Host.Cell} (h : c ∈ m.writeByte a v) :
    c ∈ m ∨ c = (a, v) := by
  induction m with
  | nil => simp only [Memory.writeByte] at h; split at h <;> simp_all
  | cons d m ih =>
    obtain ⟨k, b⟩ := d
    simp only [Memory.writeByte] at h
    split at h
    · split at h
      · exact .inl h
      · rcases List.mem_cons.1 h with rfl | h
        · exact .inr rfl
        · exact .inl h
    · split at h
      · split at h
        · exact .inl (List.mem_cons_of_mem _ h)
        · rcases List.mem_cons.1 h with rfl | h
          · exact .inr rfl
          · exact .inl (List.mem_cons_of_mem _ h)
      · rcases List.mem_cons.1 h with rfl | h
        · exact .inl (by simp)
        · rcases ih h with h | h
          · exact .inl (List.mem_cons_of_mem _ h)
          · exact .inr h

/-- A one-byte write keeps the canonical form. -/
theorem wf_writeByte {m : Memory} (h : m.wf) (a : Nat) (v : Byte) : (m.writeByte a v).wf := by
  induction m with
  | nil =>
    simp only [Memory.writeByte]
    split
    · exact wf_nil
    · next hv => exact (wf_cons ..).2 ⟨by simp, hv, wf_nil⟩
  | cons d m ih =>
    obtain ⟨k, b⟩ := d
    obtain ⟨hk, hb, hm⟩ := (wf_cons ..).1 h
    simp only [Memory.writeByte]
    split
    · next hak =>
      split
      · exact h
      · next hv =>
        refine (wf_cons ..).2 ⟨fun c hc => ?_, hv, h⟩
        rcases List.mem_cons.1 hc with rfl | hc
        · exact hak
        · exact lt_trans hak (hk c hc)
    · split
      · next hak =>
        subst hak
        split
        · exact hm
        · next hv => exact (wf_cons ..).2 ⟨hk, hv, hm⟩
      · next h1 h2 =>
        refine (wf_cons ..).2 ⟨fun c hc => ?_, hb, ih hm⟩
        rcases mem_writeByte hc with hc | rfl
        · exact hk c hc
        · exact (by omega : k < a)

/-- R43 for one byte: the byte written reads back, every other byte reads as before. -/
theorem readByte_writeByte {m : Memory} (h : m.wf) (a : Nat) (v : Byte) (c : Nat) :
    (m.writeByte a v).readByte c = if c = a then v else m.readByte c := by
  induction m with
  | nil =>
    simp only [Memory.writeByte]
    split
    · next hv => simp [hv]
    · simp only [readByte_cons, readByte_nil, eq_comm]
  | cons d m ih =>
    obtain ⟨k, b⟩ := d
    obtain ⟨hk, hb, hm⟩ := (wf_cons ..).1 h
    simp only [Memory.writeByte]
    split
    · next hak =>
      split
      · next hv =>
        split
        · next hc =>
          rw [hc, hv]
          apply readByte_below
          intro d hd
          rcases List.mem_cons.1 hd with rfl | hd
          · exact hak
          · exact lt_trans hak (hk d hd)
        · rfl
      · rw [readByte_cons]; simp only [eq_comm]
    · split
      · next hak =>
        subst hak
        split
        · next hv =>
          rw [readByte_cons]
          by_cases hc : c = a
          · subst hc; simp [hv, readByte_below hk]
          · simp [hc, Ne.symm hc]
        · simp only [readByte_cons, eq_comm]; split <;> simp_all
      · next h1 h2 =>
        rw [readByte_cons, readByte_cons, ih hm]
        by_cases hkc : k = c
        · subst hkc; simp [Ne.symm h2]
        · simp [hkc]

/-- A write below `size` lists nothing at or above it. -/
theorem within_writeByte {m : Memory} {size a : Nat} (h : m.within size) (ha : a < size) (v : Byte) :
    (m.writeByte a v).within size := by
  intro c hc
  rcases mem_writeByte hc with hc | rfl
  · exact h c hc
  · exact ha

/-- `MemWrite` keeps the canonical form. -/
theorem wf_writeLE {m : Memory} (h : m.wf) (a n : Nat) (v : Word) : (m.writeLE a n v).wf := by
  induction n generalizing m a v with
  | zero => exact h
  | succ n ih => exact ih (wf_writeByte h _ _) _ _

/-- `MemWrite` lists nothing beyond the memory. -/
theorem within_writeLE {m : Memory} {size : Nat} (h : m.within size) {a n : Nat} (ha : a + n ≤ size) (v : Word) :
    (m.writeLE a n v).within size := by
  induction n generalizing m a v with
  | zero => exact h
  | succ n ih => exact ih (within_writeByte h (by omega) _) (by omega) _

/-- R43: byte `a + i` of the `n` stored reads as bits `8i+7 .. 8i` of the word; no other byte changes. -/
theorem readByte_writeLE {m : Memory} (h : m.wf) (a n : Nat) (v : Word) (c : Nat) :
    (m.writeLE a n v).readByte c =
      if a ≤ c ∧ c < a + n then v.extractLsb' (8 * (c - a)) 8 else m.readByte c := by
  induction n generalizing m a v with
  | zero => rw [if_neg (by omega)]; rfl
  | succ n ih =>
    rw [Memory.writeLE, ih (wf_writeByte h _ _), readByte_writeByte h]
    by_cases hc : c = a
    · subst hc
      rw [if_neg (by omega), if_pos rfl, if_pos (by omega)]
      apply BitVec.eq_of_getLsbD_eq
      intro i hi
      simp [hi]
    · by_cases hin : a ≤ c ∧ c < a + (n + 1)
      · rw [if_pos (by omega), if_pos hin]
        apply BitVec.eq_of_getLsbD_eq
        intro i hi
        have : 8 + (8 * (c - (a + 1)) + i) = 8 * (c - a) + i := by omega
        simp [hi, this]
      · rw [if_neg (by omega), if_neg hc, if_neg hin]

/-- R42: byte `i` of what `MemRead` returns is byte `a + i` of memory. -/
theorem extract_readLE (m : Memory) (a n i : Nat) (h : i < n) :
    (m.readLE a n).extractLsb' (8 * i) 8 = m.readByte (a + i) := by
  induction n generalizing a i with
  | zero => omega
  | succ n ih =>
    apply BitVec.eq_of_getLsbD_eq
    intro j hj
    rw [Memory.readLE]
    rcases i with _ | i
    · simp only [BitVec.getLsbD_extractLsb', hj]
      rw [show 8 * 0 + j = j by omega]
      erw [BitVec.getLsbD_append]
      simp [hj]
    · rw [show a + (i + 1) = (a + 1) + i by omega, ← ih (a + 1) i (by omega)]
      simp only [BitVec.getLsbD_extractLsb', hj]
      erw [BitVec.getLsbD_append]
      have : ¬ (8 * (i + 1) + j < 8) := by omega
      simp [this, show 8 * (i + 1) + j - 8 = 8 * i + j by omega]

theorem readLE_zero (m : Memory) (a : Nat) : m.readLE a 0 = 0#0 := rfl

/-- One byte. -/
theorem readLE_one (m : Memory) (a : Nat) : m.readLE a 1 = m.readByte a := by
  show (0#0 ++ m.readByte a : BitVec (0 + 8)) = m.readByte a
  apply BitVec.eq_of_toNat_eq
  rw [BitVec.toNat_append]
  simp

/-- Two bytes: `{M[a+1], M[a]}` (R142). -/
theorem readLE_two (m : Memory) (a : Nat) :
    m.readLE a 2 = (m.readByte (a + 1) ++ m.readByte a : BitVec 16) := by
  show (m.readLE (a + 1) 1 ++ m.readByte a : BitVec 16) = _
  rw [readLE_one]

/-- Four bytes: `{M[a+3], M[a+2], M[a+1], M[a]}` (R55, R143). -/
theorem readLE_four (m : Memory) (a : Nat) :
    m.readLE a 4 =
      (m.readByte (a + 3) ++ m.readByte (a + 2) ++ m.readByte (a + 1) ++ m.readByte a : BitVec 32) := by
  show ((m.readLE (a + 2) 2 ++ m.readByte (a + 1) : BitVec 24) ++ m.readByte a : BitVec 32) = _
  rw [readLE_two]

/-- Two memories that read alike on `a .. a+n-1` give the same `MemRead` there. -/
theorem readLE_congr {m m' : Memory} {a n : Nat} (h : ∀ c, a ≤ c → c < a + n → m.readByte c = m'.readByte c) :
    m.readLE a n = m'.readLE a n := by
  induction n generalizing a with
  | zero => rfl
  | succ n ih =>
    rw [Memory.readLE, Memory.readLE, h a (by omega) (by omega), ih (fun c h1 h2 => h c (by omega) (by omega))]

theorem wf_writeList {m : Memory} (h : m.wf) (a : Nat) (bs : List Byte) : (m.writeList a bs).wf := by
  induction bs generalizing m a with
  | nil => exact h
  | cons b bs ih => exact ih (wf_writeByte h _ _) _

theorem within_writeList {m : Memory} {size : Nat} (h : m.within size) {a : Nat} (bs : List Byte)
    (ha : a + bs.length ≤ size) : (m.writeList a bs).within size := by
  induction bs generalizing m a with
  | nil => exact h
  | cons b bs ih =>
    rw [List.length_cons] at ha
    exact ih (within_writeByte h (by omega) _) (by omega)

/-- What `MemWrite` answers, when it answers. -/
theorem memWrite_eq_some {s t : State} {addr v : Word} {n : Nat} (h : s.memWrite addr n v = some t) :
    addr.toNat + n ≤ s.cfg.memSize ∧ t = s.setMem (s.mem.writeLE addr.toNat n v) := by
  unfold State.memWrite at h
  split at h
  · next hb => exact ⟨by simpa [State.inBounds] using hb, (Option.some.inj h).symm⟩
  · cases h

/-- What `MemRead` answers, when it answers. -/
theorem memRead_eq_some {s : State} {addr : Word} {n : Nat} {v : BitVec (8 * n)} (h : s.memRead addr n = some v) :
    addr.toNat + n ≤ s.cfg.memSize ∧ v = s.mem.readLE addr.toNat n := by
  unfold State.memRead at h
  split at h
  · next hb => exact ⟨by simpa [State.inBounds] using hb, (Option.some.inj h).symm⟩
  · cases h

theorem memRead_inBounds {s : State} {addr : Word} {n : Nat} (h : addr.toNat + n ≤ s.cfg.memSize) :
    s.memRead addr n = some (s.mem.readLE addr.toNat n) := by
  simp [State.memRead, State.inBounds, h]

theorem memRead_outOfBounds {s : State} {addr : Word} {n : Nat} (h : ¬ addr.toNat + n ≤ s.cfg.memSize) :
    s.memRead addr n = none := by
  simp [State.memRead, State.inBounds, h]

theorem memWrite_inBounds {s : State} {addr v : Word} {n : Nat} (h : addr.toNat + n ≤ s.cfg.memSize) :
    s.memWrite addr n v = some (s.setMem (s.mem.writeLE addr.toNat n v)) := by
  simp [State.memWrite, State.inBounds, h]

theorem memWrite_outOfBounds {s : State} {addr v : Word} {n : Nat} (h : ¬ addr.toNat + n ≤ s.cfg.memSize) :
    s.memWrite addr n v = none := by
  simp [State.memWrite, State.inBounds, h]

end Sys2Proof.Machine
end

