-- ==== Sys2Proof/Laws/Exec.lean ====
section
/-! SUPPORT. What each shared ending of an instruction can do, what `exec` can do, and what `step` can do: said once,
cited everywhere. -/

namespace Sys2Proof.Machine

theorem writeResult_eq (s : State) (rd : RegIdx) (r : Word) :
    s.writeResult rd r = .next ((s.setReg rd r).setPc (s.pc + 4#32)) := by
  simp [State.writeResult, State.advance, State.nextPc]

theorem branchResult_eq (s : State) (c : Bool) (imm : Word) :
    s.branchResult c imm = .next (s.setPc (if c then s.pc + imm else s.pc + 4#32)) := rfl

theorem jumpResult_eq (s : State) (rd : RegIdx) (target : Word) :
    s.jumpResult rd target = .next ((s.setReg rd (s.pc + 4#32)).setPc target) := rfl

theorem loadResult_inBounds {s : State} {ea : Word} {n : Nat} (h : ea.toNat + n ≤ s.cfg.memSize) (rd : RegIdx)
    (extend : BitVec (8 * n) → Word) :
    s.loadResult rd ea n extend =
      .next ((s.setReg rd (extend (s.mem.readLE ea.toNat n))).setPc (s.pc + 4#32)) := by
  simp only [State.loadResult, memRead_inBounds h, writeResult_eq]

theorem loadResult_outOfBounds {s : State} {ea : Word} {n : Nat} (h : ¬ ea.toNat + n ≤ s.cfg.memSize) (rd : RegIdx)
    (extend : BitVec (8 * n) → Word) :
    s.loadResult rd ea n extend = .next (s.raiseMemoryFault .load ea) := by
  simp only [State.loadResult, memRead_outOfBounds h]

theorem storeResult_inBounds {s : State} {ea : Word} {n : Nat} (h : ea.toNat + n ≤ s.cfg.memSize) (v : Word) :
    s.storeResult ea n v = .next ((s.setMem (s.mem.writeLE ea.toNat n v)).setPc (s.pc + 4#32)) := by
  simp only [State.storeResult, memWrite_inBounds h]; rfl

theorem storeResult_outOfBounds {s : State} {ea : Word} {n : Nat} (h : ¬ ea.toNat + n ≤ s.cfg.memSize) (v : Word) :
    s.storeResult ea n v = .next (s.raiseMemoryFault .store ea) := by
  simp only [State.storeResult, memWrite_outOfBounds h]

/-- Everything an instruction can do, case by case: `Effect i s t` relates the state before and after. -/
inductive Effect (i : Instr) (s : State) : State → Prop where
  /-- A destination register and pc; when the instruction is a load, its bytes lie in the memory. -/
  | writes (rd : RegIdx) (v p : Word) (h : i.dest = some rd)
      (hl : ∀ rs1 imm n, i.loads = some (rs1, imm, n) → (s.effAddr rs1 imm).toNat + n ≤ s.cfg.memSize) :
      Effect i s ((s.setReg rd v).setPc p)
  /-- pc alone: a branch or ECALL. -/
  | moves (p : Word) (hd : i.dest = none) (hs : i.stores = none) (he : i ≠ .ebreak) : Effect i s (s.setPc p)
  /-- Bytes of memory, and pc + 4. -/
  | stores (rs1 : RegIdx) (imm : Word) (n : Nat) (v : Word) (h : i.stores = some (rs1, imm, n))
      (hb : (s.effAddr rs1 imm).toNat + n ≤ s.cfg.memSize) :
      Effect i s ((s.setMem (s.mem.writeLE (s.effAddr rs1 imm).toNat n v)).setPc (s.pc + 4#32))
  /-- A load beyond the memory. -/
  | loadFault (rs1 : RegIdx) (imm : Word) (n : Nat) (h : i.loads = some (rs1, imm, n))
      (hb : ¬ (s.effAddr rs1 imm).toNat + n ≤ s.cfg.memSize) :
      Effect i s (s.raiseMemoryFault .load (s.effAddr rs1 imm))
  /-- A store beyond the memory. -/
  | storeFault (rs1 : RegIdx) (imm : Word) (n : Nat) (h : i.stores = some (rs1, imm, n))
      (hb : ¬ (s.effAddr rs1 imm).toNat + n ≤ s.cfg.memSize) :
      Effect i s (s.raiseMemoryFault .store (s.effAddr rs1 imm))
  /-- The halt. -/
  | halts (h : i = .ebreak) : Effect i s s.halt

/-- What stores neither loads nor writes a register. -/
theorem dest_of_stores {i : Instr} {x : RegIdx × Word × Nat} (h : i.stores = some x) : i.dest = none := by
  cases i <;> simp_all [Instr.stores, Instr.dest]

/-- What loads writes a register. -/
theorem dest_of_loads {i : Instr} {x : RegIdx × Word × Nat} (h : i.loads = some x) : ∃ rd, i.dest = some rd := by
  cases i <;> simp_all [Instr.loads, Instr.dest]

theorem writeResult_effect {i : Instr} {s : State} {rd : RegIdx} (h : i.dest = some rd) (hl : i.loads = none)
    (r : Word) : ∃ t, s.writeResult rd r = .next t ∧ Effect i s t :=
  ⟨_, writeResult_eq .., .writes rd r _ h (by simp [hl])⟩

theorem jumpResult_effect {i : Instr} {s : State} {rd : RegIdx} (h : i.dest = some rd) (hl : i.loads = none)
    (target : Word) : ∃ t, s.jumpResult rd target = .next t ∧ Effect i s t :=
  ⟨_, jumpResult_eq .., .writes rd _ _ h (by simp [hl])⟩

theorem branchResult_effect {i : Instr} {s : State} (hd : i.dest = none) (hs : i.stores = none) (he : i ≠ .ebreak)
    (c : Bool) (imm : Word) : ∃ t, s.branchResult c imm = .next t ∧ Effect i s t :=
  ⟨_, branchResult_eq .., .moves _ hd hs he⟩

theorem loadResult_effect {i : Instr} {s : State} {rd rs1 : RegIdx} {imm : Word} {n : Nat}
    (hd : i.dest = some rd) (hl : i.loads = some (rs1, imm, n)) (extend : BitVec (8 * n) → Word) :
    ∃ t, s.loadResult rd (s.effAddr rs1 imm) n extend = .next t ∧ Effect i s t := by
  by_cases hb : (s.effAddr rs1 imm).toNat + n ≤ s.cfg.memSize
  · refine ⟨_, loadResult_inBounds hb .., .writes rd _ _ hd fun _ _ _ h => ?_⟩
    rw [hl] at h
    cases h
    exact hb
  · exact ⟨_, loadResult_outOfBounds hb .., .loadFault rs1 imm n hl hb⟩

theorem storeResult_effect {i : Instr} {s : State} {rs1 : RegIdx} {imm : Word} {n : Nat}
    (hs : i.stores = some (rs1, imm, n)) (v : Word) :
    ∃ t, s.storeResult (s.effAddr rs1 imm) n v = .next t ∧ Effect i s t := by
  by_cases hb : (s.effAddr rs1 imm).toNat + n ≤ s.cfg.memSize
  · exact ⟨_, storeResult_inBounds hb v, .stores rs1 imm n v hs hb⟩
  · exact ⟨_, storeResult_outOfBounds hb v, .storeFault rs1 imm n hs hb⟩

/-- Every instruction answers a next state, and its effect is one of the cases of `Effect`. -/
theorem exec_effect (i : Instr) (s : State) : ∃ t, exec i s = .next t ∧ Effect i s t := by
  cases i with
  | add | sub | xor | or | and | sll | srl | sra | slt | sltu => exact writeResult_effect rfl rfl _
  | addi | xori | ori | andi | slti | sltiu | slli | srli | srai => exact writeResult_effect rfl rfl _
  | lb | lh | lw | lbu | lhu => exact loadResult_effect rfl rfl _
  | sb | sh | sw => exact storeResult_effect rfl _
  | beq | bne | blt | bge | bltu | bgeu => exact branchResult_effect rfl rfl (by simp) _ _
  | jal | jalr => exact jumpResult_effect rfl rfl _
  | lui | auipc => exact writeResult_effect rfl rfl _
  | ecall => exact ⟨_, rfl, .moves _ rfl rfl (by simp)⟩
  | ebreak => exact ⟨_, rfl, .halts rfl⟩

/-- `exec` read backwards. -/
theorem effect_of_exec {i : Instr} {s t : State} (h : exec i s = .next t) : Effect i s t := by
  obtain ⟨u, hu, he⟩ := exec_effect i s
  rw [hu] at h
  cases h
  exact he

/-- Everything a step that answers a next state can have done. -/
inductive StepCase (s t : State) : Prop where
  | fetchFault (hf : s.fetch = none) (ht : t = s.raiseMemoryFault .fetch s.pc)
  | unimplemented (w : Word) (r : Reject) (hf : s.fetch = some w) (hd : decodeWord w = .error r)
      (ht : t = s.unimplemented w)
  | runs (w : Word) (i : Instr) (hf : s.fetch = some w) (hd : decodeWord w = .ok i) (ht : exec i s = .next t)

theorem step_cases {s t : State} (h : step s = .next t) : s.runState = .running ∧ StepCase s t := by
  unfold step at h
  split at h
  · cases h
  · cases h
  next hr =>
  refine ⟨hr, ?_⟩
  split at h
  · next hf => cases h; exact .fetchFault hf rfl
  next w hf =>
  split at h
  · next i hd => exact .runs w i hf hd h
  · next r hd => cases h; exact .unimplemented w r hf hd rfl

theorem step_running {s : State} {w : Word} {i : Instr} (hr : s.runState = .running) (hf : s.fetch = some w)
    (hd : decodeWord w = .ok i) : step s = exec i s := by
  simp [step, hr, hf, hd]

end Sys2Proof.Machine
end

