-- ==== Sys2Proof/Laws/PerInstr.lean ====
section
/-! SUPPORT. Statements for all instructions, made per instruction. `EncodeFitsRow`: the word of an instruction meets the
mask and match of its own row of spec/30_encoding.md R74. -/

namespace Sys2Proof.Laws

/-- Masking a word keeps the opcode and funct3 fields and nothing else. -/
theorem and_opcode_funct3 (w : Word) :
    w &&& 0x0000707F#32 = (0#17 ++ funct3Of w ++ 0#5 ++ opcodeOf w : BitVec 32) := by
  apply BitVec.eq_of_getLsbD_eq
  intro i hi
  simp only [funct3Of, opcodeOf, BitVec.getLsbD_and, BitVec.getLsbD_append, BitVec.getLsbD_extractLsb']
  interval_cases i <;> simp

/-- Masking a word keeps the opcode field and nothing else. -/
theorem and_opcode (w : Word) : w &&& 0x0000007F#32 = (0#25 ++ opcodeOf w : BitVec 32) := by
  apply BitVec.eq_of_getLsbD_eq
  intro i hi
  simp only [opcodeOf, BitVec.getLsbD_and, BitVec.getLsbD_append, BitVec.getLsbD_extractLsb']
  interval_cases i <;> simp

/-- Masking a word keeps the opcode, funct3 and funct7 fields and nothing else. -/
theorem and_opcode_funct3_funct7 (w : Word) :
    w &&& 0xFE00707F#32 = (funct7Of w ++ 0#10 ++ funct3Of w ++ 0#5 ++ opcodeOf w : BitVec 32) := by
  apply BitVec.eq_of_getLsbD_eq
  intro i hi
  simp only [funct7Of, funct3Of, opcodeOf, BitVec.getLsbD_and, BitVec.getLsbD_append, BitVec.getLsbD_extractLsb']
  interval_cases i <;> simp

/-- Masking a word keeps the opcode, funct3 and the field `inst[31:20]` and nothing else. -/
theorem and_opcode_funct3_sysField (w : Word) :
    w &&& 0xFFF0707F#32 = (sysFieldOf w ++ 0#5 ++ funct3Of w ++ 0#5 ++ opcodeOf w : BitVec 32) := by
  apply BitVec.eq_of_getLsbD_eq
  intro i hi
  simp only [sysFieldOf, funct3Of, opcodeOf, BitVec.getLsbD_and, BitVec.getLsbD_append, BitVec.getLsbD_extractLsb']
  interval_cases i <;> simp

def EncodeFitsRow.Statement (i : Instr) : Prop := i.row.holds (encode i)

theorem EncodeFitsRow.add (rd : RegIdx) (rs1 : RegIdx) (rs2 : RegIdx) :
    EncodeFitsRow.Statement (.add rd rs1 rs2) := by
  simp [EncodeFitsRow.Statement, Instr.row, encode, Row.holds, and_opcode_funct3_funct7]

theorem EncodeFitsRow.sub (rd : RegIdx) (rs1 : RegIdx) (rs2 : RegIdx) :
    EncodeFitsRow.Statement (.sub rd rs1 rs2) := by
  simp [EncodeFitsRow.Statement, Instr.row, encode, Row.holds, and_opcode_funct3_funct7]

theorem EncodeFitsRow.xor (rd : RegIdx) (rs1 : RegIdx) (rs2 : RegIdx) :
    EncodeFitsRow.Statement (.xor rd rs1 rs2) := by
  simp [EncodeFitsRow.Statement, Instr.row, encode, Row.holds, and_opcode_funct3_funct7]

theorem EncodeFitsRow.or (rd : RegIdx) (rs1 : RegIdx) (rs2 : RegIdx) :
    EncodeFitsRow.Statement (.or rd rs1 rs2) := by
  simp [EncodeFitsRow.Statement, Instr.row, encode, Row.holds, and_opcode_funct3_funct7]

theorem EncodeFitsRow.and (rd : RegIdx) (rs1 : RegIdx) (rs2 : RegIdx) :
    EncodeFitsRow.Statement (.and rd rs1 rs2) := by
  simp [EncodeFitsRow.Statement, Instr.row, encode, Row.holds, and_opcode_funct3_funct7]

theorem EncodeFitsRow.sll (rd : RegIdx) (rs1 : RegIdx) (rs2 : RegIdx) :
    EncodeFitsRow.Statement (.sll rd rs1 rs2) := by
  simp [EncodeFitsRow.Statement, Instr.row, encode, Row.holds, and_opcode_funct3_funct7]

theorem EncodeFitsRow.srl (rd : RegIdx) (rs1 : RegIdx) (rs2 : RegIdx) :
    EncodeFitsRow.Statement (.srl rd rs1 rs2) := by
  simp [EncodeFitsRow.Statement, Instr.row, encode, Row.holds, and_opcode_funct3_funct7]

theorem EncodeFitsRow.sra (rd : RegIdx) (rs1 : RegIdx) (rs2 : RegIdx) :
    EncodeFitsRow.Statement (.sra rd rs1 rs2) := by
  simp [EncodeFitsRow.Statement, Instr.row, encode, Row.holds, and_opcode_funct3_funct7]

theorem EncodeFitsRow.slt (rd : RegIdx) (rs1 : RegIdx) (rs2 : RegIdx) :
    EncodeFitsRow.Statement (.slt rd rs1 rs2) := by
  simp [EncodeFitsRow.Statement, Instr.row, encode, Row.holds, and_opcode_funct3_funct7]

theorem EncodeFitsRow.sltu (rd : RegIdx) (rs1 : RegIdx) (rs2 : RegIdx) :
    EncodeFitsRow.Statement (.sltu rd rs1 rs2) := by
  simp [EncodeFitsRow.Statement, Instr.row, encode, Row.holds, and_opcode_funct3_funct7]

theorem EncodeFitsRow.addi (rd : RegIdx) (rs1 : RegIdx) (imm : Word) :
    EncodeFitsRow.Statement (.addi rd rs1 imm) := by
  simp [EncodeFitsRow.Statement, Instr.row, encode, Row.holds, and_opcode_funct3]

theorem EncodeFitsRow.xori (rd : RegIdx) (rs1 : RegIdx) (imm : Word) :
    EncodeFitsRow.Statement (.xori rd rs1 imm) := by
  simp [EncodeFitsRow.Statement, Instr.row, encode, Row.holds, and_opcode_funct3]

theorem EncodeFitsRow.ori (rd : RegIdx) (rs1 : RegIdx) (imm : Word) :
    EncodeFitsRow.Statement (.ori rd rs1 imm) := by
  simp [EncodeFitsRow.Statement, Instr.row, encode, Row.holds, and_opcode_funct3]

theorem EncodeFitsRow.andi (rd : RegIdx) (rs1 : RegIdx) (imm : Word) :
    EncodeFitsRow.Statement (.andi rd rs1 imm) := by
  simp [EncodeFitsRow.Statement, Instr.row, encode, Row.holds, and_opcode_funct3]

theorem EncodeFitsRow.slti (rd : RegIdx) (rs1 : RegIdx) (imm : Word) :
    EncodeFitsRow.Statement (.slti rd rs1 imm) := by
  simp [EncodeFitsRow.Statement, Instr.row, encode, Row.holds, and_opcode_funct3]

theorem EncodeFitsRow.sltiu (rd : RegIdx) (rs1 : RegIdx) (imm : Word) :
    EncodeFitsRow.Statement (.sltiu rd rs1 imm) := by
  simp [EncodeFitsRow.Statement, Instr.row, encode, Row.holds, and_opcode_funct3]

theorem EncodeFitsRow.slli (rd : RegIdx) (rs1 : RegIdx) (shamt : BitVec 5) :
    EncodeFitsRow.Statement (.slli rd rs1 shamt) := by
  simp [EncodeFitsRow.Statement, Instr.row, encode, Row.holds, and_opcode_funct3_funct7]

theorem EncodeFitsRow.srli (rd : RegIdx) (rs1 : RegIdx) (shamt : BitVec 5) :
    EncodeFitsRow.Statement (.srli rd rs1 shamt) := by
  simp [EncodeFitsRow.Statement, Instr.row, encode, Row.holds, and_opcode_funct3_funct7]

theorem EncodeFitsRow.srai (rd : RegIdx) (rs1 : RegIdx) (shamt : BitVec 5) :
    EncodeFitsRow.Statement (.srai rd rs1 shamt) := by
  simp [EncodeFitsRow.Statement, Instr.row, encode, Row.holds, and_opcode_funct3_funct7]

theorem EncodeFitsRow.lb (rd : RegIdx) (rs1 : RegIdx) (imm : Word) :
    EncodeFitsRow.Statement (.lb rd rs1 imm) := by
  simp [EncodeFitsRow.Statement, Instr.row, encode, Row.holds, and_opcode_funct3]

theorem EncodeFitsRow.lh (rd : RegIdx) (rs1 : RegIdx) (imm : Word) :
    EncodeFitsRow.Statement (.lh rd rs1 imm) := by
  simp [EncodeFitsRow.Statement, Instr.row, encode, Row.holds, and_opcode_funct3]

theorem EncodeFitsRow.lw (rd : RegIdx) (rs1 : RegIdx) (imm : Word) :
    EncodeFitsRow.Statement (.lw rd rs1 imm) := by
  simp [EncodeFitsRow.Statement, Instr.row, encode, Row.holds, and_opcode_funct3]

theorem EncodeFitsRow.lbu (rd : RegIdx) (rs1 : RegIdx) (imm : Word) :
    EncodeFitsRow.Statement (.lbu rd rs1 imm) := by
  simp [EncodeFitsRow.Statement, Instr.row, encode, Row.holds, and_opcode_funct3]

theorem EncodeFitsRow.lhu (rd : RegIdx) (rs1 : RegIdx) (imm : Word) :
    EncodeFitsRow.Statement (.lhu rd rs1 imm) := by
  simp [EncodeFitsRow.Statement, Instr.row, encode, Row.holds, and_opcode_funct3]

theorem EncodeFitsRow.sb (rs1 : RegIdx) (rs2 : RegIdx) (imm : Word) :
    EncodeFitsRow.Statement (.sb rs1 rs2 imm) := by
  simp [EncodeFitsRow.Statement, Instr.row, encode, Row.holds, and_opcode_funct3]

theorem EncodeFitsRow.sh (rs1 : RegIdx) (rs2 : RegIdx) (imm : Word) :
    EncodeFitsRow.Statement (.sh rs1 rs2 imm) := by
  simp [EncodeFitsRow.Statement, Instr.row, encode, Row.holds, and_opcode_funct3]

theorem EncodeFitsRow.sw (rs1 : RegIdx) (rs2 : RegIdx) (imm : Word) :
    EncodeFitsRow.Statement (.sw rs1 rs2 imm) := by
  simp [EncodeFitsRow.Statement, Instr.row, encode, Row.holds, and_opcode_funct3]

theorem EncodeFitsRow.beq (rs1 : RegIdx) (rs2 : RegIdx) (imm : Word) :
    EncodeFitsRow.Statement (.beq rs1 rs2 imm) := by
  simp [EncodeFitsRow.Statement, Instr.row, encode, Row.holds, and_opcode_funct3]

theorem EncodeFitsRow.bne (rs1 : RegIdx) (rs2 : RegIdx) (imm : Word) :
    EncodeFitsRow.Statement (.bne rs1 rs2 imm) := by
  simp [EncodeFitsRow.Statement, Instr.row, encode, Row.holds, and_opcode_funct3]

theorem EncodeFitsRow.blt (rs1 : RegIdx) (rs2 : RegIdx) (imm : Word) :
    EncodeFitsRow.Statement (.blt rs1 rs2 imm) := by
  simp [EncodeFitsRow.Statement, Instr.row, encode, Row.holds, and_opcode_funct3]

theorem EncodeFitsRow.bge (rs1 : RegIdx) (rs2 : RegIdx) (imm : Word) :
    EncodeFitsRow.Statement (.bge rs1 rs2 imm) := by
  simp [EncodeFitsRow.Statement, Instr.row, encode, Row.holds, and_opcode_funct3]

theorem EncodeFitsRow.bltu (rs1 : RegIdx) (rs2 : RegIdx) (imm : Word) :
    EncodeFitsRow.Statement (.bltu rs1 rs2 imm) := by
  simp [EncodeFitsRow.Statement, Instr.row, encode, Row.holds, and_opcode_funct3]

theorem EncodeFitsRow.bgeu (rs1 : RegIdx) (rs2 : RegIdx) (imm : Word) :
    EncodeFitsRow.Statement (.bgeu rs1 rs2 imm) := by
  simp [EncodeFitsRow.Statement, Instr.row, encode, Row.holds, and_opcode_funct3]

theorem EncodeFitsRow.jal (rd : RegIdx) (imm : Word) :
    EncodeFitsRow.Statement (.jal rd imm) := by
  simp [EncodeFitsRow.Statement, Instr.row, encode, Row.holds, and_opcode]

theorem EncodeFitsRow.jalr (rd : RegIdx) (rs1 : RegIdx) (imm : Word) :
    EncodeFitsRow.Statement (.jalr rd rs1 imm) := by
  simp [EncodeFitsRow.Statement, Instr.row, encode, Row.holds, and_opcode_funct3]

theorem EncodeFitsRow.lui (rd : RegIdx) (imm : Word) :
    EncodeFitsRow.Statement (.lui rd imm) := by
  simp [EncodeFitsRow.Statement, Instr.row, encode, Row.holds, and_opcode]

theorem EncodeFitsRow.auipc (rd : RegIdx) (imm : Word) :
    EncodeFitsRow.Statement (.auipc rd imm) := by
  simp [EncodeFitsRow.Statement, Instr.row, encode, Row.holds, and_opcode]

theorem EncodeFitsRow.ecall :
    EncodeFitsRow.Statement (.ecall) := by
  unfold EncodeFitsRow.Statement
  decide

theorem EncodeFitsRow.ebreak :
    EncodeFitsRow.Statement (.ebreak) := by
  unfold EncodeFitsRow.Statement
  decide

end Sys2Proof.Laws
end

