-- ==== Sys2Proof/Tests/Slice0.lean ====
section
/-! SUPPORT. The package's own tests: ill-formed terms refused, one word of every instruction decoded, single steps of
spec/95_test_vectors.md (T<n> is the vector's id; the expected values are that file's), and for every statement with
hypotheses a state and operands that meet them. -/

namespace Sys2Proof.Tests

open Sys2Proof.Machine

/-! ### Well-formedness refuses an ill-formed term of each check (R64 to R68) -/

theorem test_wf_imm12 :
    (Instr.addi 1 1 2048#32).wf = false ∧ (Instr.sw 1 1 (-2049)).wf = false ∧ (Instr.lw 1 1 2047#32).wf = true := by
  decide

theorem test_wf_immB :
    (Instr.beq 1 1 4096#32).wf = false ∧ (Instr.beq 1 1 (-4098)).wf = false ∧ (Instr.bne 1 1 3#32).wf = false ∧
      (Instr.bgeu 1 1 4094#32).wf = true := by
  decide

theorem test_wf_immU : (Instr.lui 1 1#32).wf = false ∧ (Instr.auipc 1 0xFFFFFFFF#32).wf = false ∧
    (Instr.lui 1 0xFFFFF000#32).wf = true := by
  decide

theorem test_wf_immJ :
    (Instr.jal 1 0x100000#32).wf = false ∧ (Instr.jal 1 (-1048578)).wf = false ∧ (Instr.jal 1 1#32).wf = false ∧
      (Instr.jal 1 0xFFFFE#32).wf = true := by
  decide

/-! ### Decoding: a word of every instruction, written field by field as R61 orders the fields of its format -/

/-- 0x002081B3. -/
theorem test_decode_add :
    decodeWord (0b0000000#7 ++ 0b00010#5 ++ 0b00001#5 ++ 0b000#3 ++ 0b00011#5 ++ 0b0110011#7) = .ok (.add 3 1 2) ∧
      encode (.add 3 1 2) = 0x002081B3#32 := by
  exact ⟨rfl, rfl⟩

/-- 0x402081B3. -/
theorem test_decode_sub :
    decodeWord (0b0100000#7 ++ 0b00010#5 ++ 0b00001#5 ++ 0b000#3 ++ 0b00011#5 ++ 0b0110011#7) = .ok (.sub 3 1 2) ∧
      encode (.sub 3 1 2) = 0x402081B3#32 := by
  exact ⟨rfl, rfl⟩

/-- 0x0020C1B3. -/
theorem test_decode_xor :
    decodeWord (0b0000000#7 ++ 0b00010#5 ++ 0b00001#5 ++ 0b100#3 ++ 0b00011#5 ++ 0b0110011#7) = .ok (.xor 3 1 2) ∧
      encode (.xor 3 1 2) = 0x0020C1B3#32 := by
  exact ⟨rfl, rfl⟩

/-- 0x0020E1B3. -/
theorem test_decode_or :
    decodeWord (0b0000000#7 ++ 0b00010#5 ++ 0b00001#5 ++ 0b110#3 ++ 0b00011#5 ++ 0b0110011#7) = .ok (.or 3 1 2) ∧
      encode (.or 3 1 2) = 0x0020E1B3#32 := by
  exact ⟨rfl, rfl⟩

/-- 0x0020F1B3. -/
theorem test_decode_and :
    decodeWord (0b0000000#7 ++ 0b00010#5 ++ 0b00001#5 ++ 0b111#3 ++ 0b00011#5 ++ 0b0110011#7) = .ok (.and 3 1 2) ∧
      encode (.and 3 1 2) = 0x0020F1B3#32 := by
  exact ⟨rfl, rfl⟩

/-- 0x002091B3. -/
theorem test_decode_sll :
    decodeWord (0b0000000#7 ++ 0b00010#5 ++ 0b00001#5 ++ 0b001#3 ++ 0b00011#5 ++ 0b0110011#7) = .ok (.sll 3 1 2) ∧
      encode (.sll 3 1 2) = 0x002091B3#32 := by
  exact ⟨rfl, rfl⟩

/-- 0x0020D1B3. -/
theorem test_decode_srl :
    decodeWord (0b0000000#7 ++ 0b00010#5 ++ 0b00001#5 ++ 0b101#3 ++ 0b00011#5 ++ 0b0110011#7) = .ok (.srl 3 1 2) ∧
      encode (.srl 3 1 2) = 0x0020D1B3#32 := by
  exact ⟨rfl, rfl⟩

/-- 0x4020D1B3. -/
theorem test_decode_sra :
    decodeWord (0b0100000#7 ++ 0b00010#5 ++ 0b00001#5 ++ 0b101#3 ++ 0b00011#5 ++ 0b0110011#7) = .ok (.sra 3 1 2) ∧
      encode (.sra 3 1 2) = 0x4020D1B3#32 := by
  exact ⟨rfl, rfl⟩

/-- 0x0020A1B3. -/
theorem test_decode_slt :
    decodeWord (0b0000000#7 ++ 0b00010#5 ++ 0b00001#5 ++ 0b010#3 ++ 0b00011#5 ++ 0b0110011#7) = .ok (.slt 3 1 2) ∧
      encode (.slt 3 1 2) = 0x0020A1B3#32 := by
  exact ⟨rfl, rfl⟩

/-- 0x0020B1B3. -/
theorem test_decode_sltu :
    decodeWord (0b0000000#7 ++ 0b00010#5 ++ 0b00001#5 ++ 0b011#3 ++ 0b00011#5 ++ 0b0110011#7) = .ok (.sltu 3 1 2) ∧
      encode (.sltu 3 1 2) = 0x0020B1B3#32 := by
  exact ⟨rfl, rfl⟩

/-- 0x80008113. -/
theorem test_decode_addi :
    decodeWord (0b100000000000#12 ++ 0b00001#5 ++ 0b000#3 ++ 0b00010#5 ++ 0b0010011#7) = .ok (.addi 2 1 (-2048)) ∧
      encode (.addi 2 1 (-2048)) = 0x80008113#32 := by
  exact ⟨rfl, rfl⟩

/-- 0xFFF0C113. -/
theorem test_decode_xori :
    decodeWord (0b111111111111#12 ++ 0b00001#5 ++ 0b100#3 ++ 0b00010#5 ++ 0b0010011#7) = .ok (.xori 2 1 (-1)) ∧
      encode (.xori 2 1 (-1)) = 0xFFF0C113#32 := by
  exact ⟨rfl, rfl⟩

/-- 0x8000E113. -/
theorem test_decode_ori :
    decodeWord (0b100000000000#12 ++ 0b00001#5 ++ 0b110#3 ++ 0b00010#5 ++ 0b0010011#7) = .ok (.ori 2 1 (-2048)) ∧
      encode (.ori 2 1 (-2048)) = 0x8000E113#32 := by
  exact ⟨rfl, rfl⟩

/-- 0x7FF0F113. -/
theorem test_decode_andi :
    decodeWord (0b011111111111#12 ++ 0b00001#5 ++ 0b111#3 ++ 0b00010#5 ++ 0b0010011#7) = .ok (.andi 2 1 2047) ∧
      encode (.andi 2 1 2047) = 0x7FF0F113#32 := by
  exact ⟨rfl, rfl⟩

/-- 0x7FF0A113. -/
theorem test_decode_slti :
    decodeWord (0b011111111111#12 ++ 0b00001#5 ++ 0b010#3 ++ 0b00010#5 ++ 0b0010011#7) = .ok (.slti 2 1 2047) ∧
      encode (.slti 2 1 2047) = 0x7FF0A113#32 := by
  exact ⟨rfl, rfl⟩

/-- 0x8000B113. -/
theorem test_decode_sltiu :
    decodeWord (0b100000000000#12 ++ 0b00001#5 ++ 0b011#3 ++ 0b00010#5 ++ 0b0010011#7) = .ok (.sltiu 2 1 (-2048)) ∧
      encode (.sltiu 2 1 (-2048)) = 0x8000B113#32 := by
  exact ⟨rfl, rfl⟩

/-- 0x01F09113. -/
theorem test_decode_slli :
    decodeWord (0b0000000#7 ++ 0b11111#5 ++ 0b00001#5 ++ 0b001#3 ++ 0b00010#5 ++ 0b0010011#7) = .ok (.slli 2 1 31) ∧
      encode (.slli 2 1 31) = 0x01F09113#32 := by
  exact ⟨rfl, rfl⟩

/-- 0x0010D113. -/
theorem test_decode_srli :
    decodeWord (0b0000000#7 ++ 0b00001#5 ++ 0b00001#5 ++ 0b101#3 ++ 0b00010#5 ++ 0b0010011#7) = .ok (.srli 2 1 1) ∧
      encode (.srli 2 1 1) = 0x0010D113#32 := by
  exact ⟨rfl, rfl⟩

/-- 0x41F0D113. -/
theorem test_decode_srai :
    decodeWord (0b0100000#7 ++ 0b11111#5 ++ 0b00001#5 ++ 0b101#3 ++ 0b00010#5 ++ 0b0010011#7) = .ok (.srai 2 1 31) ∧
      encode (.srai 2 1 31) = 0x41F0D113#32 := by
  exact ⟨rfl, rfl⟩

/-- 0x00208103. -/
theorem test_decode_lb :
    decodeWord (0b000000000010#12 ++ 0b00001#5 ++ 0b000#3 ++ 0b00010#5 ++ 0b0000011#7) = .ok (.lb 2 1 2) ∧
      encode (.lb 2 1 2) = 0x00208103#32 := by
  exact ⟨rfl, rfl⟩

/-- 0x00109103. -/
theorem test_decode_lh :
    decodeWord (0b000000000001#12 ++ 0b00001#5 ++ 0b001#3 ++ 0b00010#5 ++ 0b0000011#7) = .ok (.lh 2 1 1) ∧
      encode (.lh 2 1 1) = 0x00109103#32 := by
  exact ⟨rfl, rfl⟩

/-- 0xFFC0A103. -/
theorem test_decode_lw :
    decodeWord (0b111111111100#12 ++ 0b00001#5 ++ 0b010#3 ++ 0b00010#5 ++ 0b0000011#7) = .ok (.lw 2 1 (-4)) ∧
      encode (.lw 2 1 (-4)) = 0xFFC0A103#32 := by
  exact ⟨rfl, rfl⟩

/-- 0x0000C103. -/
theorem test_decode_lbu :
    decodeWord (0b000000000000#12 ++ 0b00001#5 ++ 0b100#3 ++ 0b00010#5 ++ 0b0000011#7) = .ok (.lbu 2 1 0) ∧
      encode (.lbu 2 1 0) = 0x0000C103#32 := by
  exact ⟨rfl, rfl⟩

/-- 0x0000D103. -/
theorem test_decode_lhu :
    decodeWord (0b000000000000#12 ++ 0b00001#5 ++ 0b101#3 ++ 0b00010#5 ++ 0b0000011#7) = .ok (.lhu 2 1 0) ∧
      encode (.lhu 2 1 0) = 0x0000D103#32 := by
  exact ⟨rfl, rfl⟩

/-- 0x000080A3. -/
theorem test_decode_sb :
    decodeWord (0b0000000#7 ++ 0b00000#5 ++ 0b00001#5 ++ 0b000#3 ++ 0b00001#5 ++ 0b0100011#7) = .ok (.sb 1 0 1) ∧
      encode (.sb 1 0 1) = 0x000080A3#32 := by
  exact ⟨rfl, rfl⟩

/-- 0x002091A3. -/
theorem test_decode_sh :
    decodeWord (0b0000000#7 ++ 0b00010#5 ++ 0b00001#5 ++ 0b001#3 ++ 0b00011#5 ++ 0b0100011#7) = .ok (.sh 1 2 3) ∧
      encode (.sh 1 2 3) = 0x002091A3#32 := by
  exact ⟨rfl, rfl⟩

/-- 0xFE20AE23. -/
theorem test_decode_sw :
    decodeWord (0b1111111#7 ++ 0b00010#5 ++ 0b00001#5 ++ 0b010#3 ++ 0b11100#5 ++ 0b0100011#7) = .ok (.sw 1 2 (-4)) ∧
      encode (.sw 1 2 (-4)) = 0xFE20AE23#32 := by
  exact ⟨rfl, rfl⟩

/-- 0xFE000CE3. -/
theorem test_decode_beq :
    decodeWord (0b1#1 ++ 0b111111#6 ++ 0b00000#5 ++ 0b00000#5 ++ 0b000#3 ++ 0b1100#4 ++ 0b1#1 ++ 0b1100011#7) = .ok (.beq 0 0 (-8)) ∧
      encode (.beq 0 0 (-8)) = 0xFE000CE3#32 := by
  exact ⟨rfl, rfl⟩

/-- 0x00209863. -/
theorem test_decode_bne :
    decodeWord (0b0#1 ++ 0b000000#6 ++ 0b00010#5 ++ 0b00001#5 ++ 0b001#3 ++ 0b1000#4 ++ 0b0#1 ++ 0b1100011#7) = .ok (.bne 1 2 16) ∧
      encode (.bne 1 2 16) = 0x00209863#32 := by
  exact ⟨rfl, rfl⟩

/-- 0x0020C863. -/
theorem test_decode_blt :
    decodeWord (0b0#1 ++ 0b000000#6 ++ 0b00010#5 ++ 0b00001#5 ++ 0b100#3 ++ 0b1000#4 ++ 0b0#1 ++ 0b1100011#7) = .ok (.blt 1 2 16) ∧
      encode (.blt 1 2 16) = 0x0020C863#32 := by
  exact ⟨rfl, rfl⟩

/-- 0x7E20DFE3. -/
theorem test_decode_bge :
    decodeWord (0b0#1 ++ 0b111111#6 ++ 0b00010#5 ++ 0b00001#5 ++ 0b101#3 ++ 0b1111#4 ++ 0b1#1 ++ 0b1100011#7) = .ok (.bge 1 2 4094) ∧
      encode (.bge 1 2 4094) = 0x7E20DFE3#32 := by
  exact ⟨rfl, rfl⟩

/-- 0x0020E863. -/
theorem test_decode_bltu :
    decodeWord (0b0#1 ++ 0b000000#6 ++ 0b00010#5 ++ 0b00001#5 ++ 0b110#3 ++ 0b1000#4 ++ 0b0#1 ++ 0b1100011#7) = .ok (.bltu 1 2 16) ∧
      encode (.bltu 1 2 16) = 0x0020E863#32 := by
  exact ⟨rfl, rfl⟩

/-- 0x0020F863. -/
theorem test_decode_bgeu :
    decodeWord (0b0#1 ++ 0b000000#6 ++ 0b00010#5 ++ 0b00001#5 ++ 0b111#3 ++ 0b1000#4 ++ 0b0#1 ++ 0b1100011#7) = .ok (.bgeu 1 2 16) ∧
      encode (.bgeu 1 2 16) = 0x0020F863#32 := by
  exact ⟨rfl, rfl⟩

/-- 0x7FFFF0EF. -/
theorem test_decode_jal :
    decodeWord (0b0#1 ++ 0b1111111111#10 ++ 0b1#1 ++ 0b11111111#8 ++ 0b00001#5 ++ 0b1101111#7) = .ok (.jal 1 1048574) ∧
      encode (.jal 1 1048574) = 0x7FFFF0EF#32 := by
  exact ⟨rfl, rfl⟩

/-- 0xFFC100E7. -/
theorem test_decode_jalr :
    decodeWord (0b111111111100#12 ++ 0b00010#5 ++ 0b000#3 ++ 0b00001#5 ++ 0b1100111#7) = .ok (.jalr 1 2 (-4)) ∧
      encode (.jalr 1 2 (-4)) = 0xFFC100E7#32 := by
  exact ⟨rfl, rfl⟩

/-- 0xABCDE2B7. -/
theorem test_decode_lui :
    decodeWord (0b10101011110011011110#20 ++ 0b00101#5 ++ 0b0110111#7) = .ok (.lui 5 0xABCDE000#32) ∧
      encode (.lui 5 0xABCDE000#32) = 0xABCDE2B7#32 := by
  exact ⟨rfl, rfl⟩

/-- 0xFFFFF297. -/
theorem test_decode_auipc :
    decodeWord (0b11111111111111111111#20 ++ 0b00101#5 ++ 0b0010111#7) = .ok (.auipc 5 0xFFFFF000#32) ∧
      encode (.auipc 5 0xFFFFF000#32) = 0xFFFFF297#32 := by
  exact ⟨rfl, rfl⟩

/-- 0x00000073. -/
theorem test_decode_ecall :
    decodeWord (0b000000000000#12 ++ 0b00000#5 ++ 0b000#3 ++ 0b00000#5 ++ 0b1110011#7) = .ok (.ecall) ∧
      encode (.ecall) = 0x00000073#32 := by
  exact ⟨rfl, rfl⟩

/-- 0x00100073. -/
theorem test_decode_ebreak :
    decodeWord (0b000000000001#12 ++ 0b00000#5 ++ 0b000#3 ++ 0b00000#5 ++ 0b1110011#7) = .ok (.ebreak) ∧
      encode (.ebreak) = 0x00100073#32 := by
  exact ⟨rfl, rfl⟩

/-- Fields R190 does not examine (T138, T139); the rejections of T144, T150, T157, T158, T162, T164. -/
theorem test_decode_unexamined_and_rejected :
    decodeWord 0x001100F3#32 = .ok .ebreak ∧ decodeWord 0x00000FF3#32 = .ok .ecall ∧
    decodeWord 0x02208133#32 = .error .unknownFunct7 ∧ decodeWord 0x0000B103#32 = .error .unknownFunct3 ∧
    decodeWord 0x000090E7#32 = .error .unknownFunct3 ∧ decodeWord 0x00200073#32 = .error .unknownSystemField ∧
    decodeWord 0x0020A1AF#32 = .error .unknownOpcode ∧ decodeWord 0x00000001#32 = .error .unknownOpcode := by
  exact ⟨rfl, rfl, rfl, rfl, rfl, rfl, rfl, rfl⟩

/-- Little-endian bytes, with one byte after the instruction; three bytes are no instruction (R41, R60). -/
theorem test_decode_bytes :
    decode [0x93#8, 0x80#8, 0x40#8, 0x06#8, 0xAA#8] = .ok (.addi 1 1 100, [0xAA#8]) ∧
    decode [0x93#8, 0x80#8, 0x40#8] = .error .truncated := by
  exact ⟨rfl, rfl⟩

/-- Section 2, the row of 0xAAAAAAAA: every field and immediate. -/
theorem test_fields :
    (opcodeOf 0xAAAAAAAA#32, rdOf 0xAAAAAAAA#32, funct3Of 0xAAAAAAAA#32, rs1Of 0xAAAAAAAA#32, rs2Of 0xAAAAAAAA#32,
      funct7Of 0xAAAAAAAA#32) = (0x2A#7, 21#5, 2#3, 21#5, 10#5, 0x55#7) ∧
    (immI 0xAAAAAAAA#32, immS 0xAAAAAAAA#32, immB 0xAAAAAAAA#32, immU 0xAAAAAAAA#32, immJ 0xAAAAAAAA#32) =
      (0xFFFFFAAA#32, 0xFFFFFAB5#32, 0xFFFFFAB4#32, 0xAAAAA000#32, 0xFFFAA2AA#32) := by
  decide

/-! ### Single steps -/

/-- A state after reset but for pc, some registers, a few bytes from `a`, and `word` where the step fetches. -/
def start (word pc : Word) (x : List (RegIdx × Word)) (a : Nat) (bytes : List Byte) : State :=
  let s := x.foldl (fun s p => s.setReg p.1 p.2) State.reset
  { (s.setPc pc).placeAtPc word with mem := Memory.writeList ((s.setPc pc).placeAtPc word).mem a bytes }

/-- What a view of the next state gives, if the step answers one. -/
def after {α : Type} (s : State) (view : State → α) : Option α :=
  match step s with
  | .next t => some (view t)
  | .fault _ => none
  | .refused _ => none

def bytesAt (t : State) (a n : Nat) : List Byte := (List.range n).map (fun i => t.mem.readByte (a + i))

/-- T1. -/
theorem test_add_T1 :
    after (start 0x002081B3#32 0x00000000#32 [(1, 0x7FFFFFFF#32), (2, 0x00000001#32)] 0 []) (fun t => (t.pc, t.getReg 3)) =
      some (0x00000004#32, 0x80000000#32) := by decide

/-- T4. -/
theorem test_add_T4 :
    after (start 0x001080B3#32 0x00000000#32 [(1, 0x80000001#32)] 0 []) (fun t => (t.pc, t.getReg 1)) =
      some (0x00000004#32, 0x00000002#32) := by decide

/-- T5. -/
theorem test_sub_T5 :
    after (start 0x402081B3#32 0x00000000#32 [(1, 0x00000000#32), (2, 0x00000001#32)] 0 []) (fun t => (t.pc, t.getReg 3)) =
      some (0x00000004#32, 0xFFFFFFFF#32) := by decide

/-- T6. -/
theorem test_sub_T6 :
    after (start 0x402081B3#32 0x00000000#32 [(1, 0x80000000#32), (2, 0x00000001#32)] 0 []) (fun t => (t.pc, t.getReg 3)) =
      some (0x00000004#32, 0x7FFFFFFF#32) := by decide

/-- T8. -/
theorem test_xor_T8 :
    after (start 0x0020C1B3#32 0x00000000#32 [(1, 0xFF00FF00#32), (2, 0x0FF00FF0#32)] 0 []) (fun t => (t.pc, t.getReg 3)) =
      some (0x00000004#32, 0xF0F0F0F0#32) := by decide

/-- T9. -/
theorem test_or_T9 :
    after (start 0x0020E1B3#32 0x00000000#32 [(1, 0xFF00FF00#32), (2, 0x0FF00FF0#32)] 0 []) (fun t => (t.pc, t.getReg 3)) =
      some (0x00000004#32, 0xFFF0FFF0#32) := by decide

/-- T10. -/
theorem test_and_T10 :
    after (start 0x0020F1B3#32 0x00000000#32 [(1, 0xFF00FF00#32), (2, 0x0FF00FF0#32)] 0 []) (fun t => (t.pc, t.getReg 3)) =
      some (0x00000004#32, 0x0F000F00#32) := by decide

/-- T12. -/
theorem test_sll_T12 :
    after (start 0x002091B3#32 0x00000000#32 [(1, 0x00000001#32), (2, 0x0000001F#32)] 0 []) (fun t => (t.pc, t.getReg 3)) =
      some (0x00000004#32, 0x80000000#32) := by decide

/-- T14. -/
theorem test_sll_T14 :
    after (start 0x002091B3#32 0x00000000#32 [(1, 0x00000001#32), (2, 0xFFFFFFE4#32)] 0 []) (fun t => (t.pc, t.getReg 3)) =
      some (0x00000004#32, 0x00000010#32) := by decide

/-- T15. -/
theorem test_srl_T15 :
    after (start 0x0020D1B3#32 0x00000000#32 [(1, 0x80000000#32), (2, 0x0000001F#32)] 0 []) (fun t => (t.pc, t.getReg 3)) =
      some (0x00000004#32, 0x00000001#32) := by decide

/-- T17. -/
theorem test_srl_T17 :
    after (start 0x0020D1B3#32 0x00000000#32 [(1, 0x80000000#32), (2, 0x00000024#32)] 0 []) (fun t => (t.pc, t.getReg 3)) =
      some (0x00000004#32, 0x08000000#32) := by decide

/-- T18. -/
theorem test_sra_T18 :
    after (start 0x4020D1B3#32 0x00000000#32 [(1, 0x80000000#32), (2, 0x00000004#32)] 0 []) (fun t => (t.pc, t.getReg 3)) =
      some (0x00000004#32, 0xF8000000#32) := by decide

/-- T20. -/
theorem test_sra_T20 :
    after (start 0x4020D1B3#32 0x00000000#32 [(1, 0x7FFFFFFF#32), (2, 0x0000001F#32)] 0 []) (fun t => (t.pc, t.getReg 3)) =
      some (0x00000004#32, 0x00000000#32) := by decide

/-- T22. -/
theorem test_slt_T22 :
    after (start 0x0020A1B3#32 0x00000000#32 [(1, 0xFFFFFFFF#32), (2, 0x00000001#32), (3, 0x00000009#32)] 0 []) (fun t => (t.pc, t.getReg 3)) =
      some (0x00000004#32, 0x00000001#32) := by decide

/-- T24. -/
theorem test_slt_T24 :
    after (start 0x0020A1B3#32 0x00000000#32 [(1, 0x80000000#32), (2, 0x7FFFFFFF#32), (3, 0x00000009#32)] 0 []) (fun t => (t.pc, t.getReg 3)) =
      some (0x00000004#32, 0x00000001#32) := by decide

/-- T26. -/
theorem test_sltu_T26 :
    after (start 0x0020B1B3#32 0x00000000#32 [(1, 0xFFFFFFFF#32), (2, 0x00000001#32), (3, 0x00000009#32)] 0 []) (fun t => (t.pc, t.getReg 3)) =
      some (0x00000004#32, 0x00000000#32) := by decide

/-- T29. -/
theorem test_sltu_T29 :
    after (start 0x002031B3#32 0x00000000#32 [(2, 0x00000007#32), (3, 0x00000009#32)] 0 []) (fun t => (t.pc, t.getReg 3)) =
      some (0x00000004#32, 0x00000001#32) := by decide

/-- T31. -/
theorem test_addi_T31 :
    after (start 0x80008113#32 0x00000000#32 [(1, 0x00000800#32)] 0 []) (fun t => (t.pc, t.getReg 2)) =
      some (0x00000004#32, 0x00000000#32) := by decide

/-- T32. -/
theorem test_addi_T32 :
    after (start 0xFFF08113#32 0x00000000#32 [(1, 0x00000000#32)] 0 []) (fun t => (t.pc, t.getReg 2)) =
      some (0x00000004#32, 0xFFFFFFFF#32) := by decide

/-- T36. -/
theorem test_xori_T36 :
    after (start 0xFFF0C113#32 0x00000000#32 [(1, 0x12345678#32)] 0 []) (fun t => (t.pc, t.getReg 2)) =
      some (0x00000004#32, 0xEDCBA987#32) := by decide

/-- T37. -/
theorem test_ori_T37 :
    after (start 0x8000E113#32 0x00000000#32 [(1, 0x00000001#32)] 0 []) (fun t => (t.pc, t.getReg 2)) =
      some (0x00000004#32, 0xFFFFF801#32) := by decide

/-- T38. -/
theorem test_andi_T38 :
    after (start 0x7FF0F113#32 0x00000000#32 [(1, 0xFFFFFFFF#32)] 0 []) (fun t => (t.pc, t.getReg 2)) =
      some (0x00000004#32, 0x000007FF#32) := by decide

/-- T39. -/
theorem test_andi_T39 :
    after (start 0x8000F113#32 0x00000000#32 [(1, 0xFFFFFFFF#32)] 0 []) (fun t => (t.pc, t.getReg 2)) =
      some (0x00000004#32, 0xFFFFF800#32) := by decide

/-- T40. -/
theorem test_slti_T40 :
    after (start 0xFFF0A113#32 0x00000000#32 [(1, 0xFFFFFFFE#32), (2, 0x00000009#32)] 0 []) (fun t => (t.pc, t.getReg 2)) =
      some (0x00000004#32, 0x00000001#32) := by decide

/-- T42. -/
theorem test_slti_T42 :
    after (start 0x7FF0A113#32 0x00000000#32 [(1, 0x80000000#32), (2, 0x00000009#32)] 0 []) (fun t => (t.pc, t.getReg 2)) =
      some (0x00000004#32, 0x00000001#32) := by decide

/-- T43. -/
theorem test_sltiu_T43 :
    after (start 0xFFF0B113#32 0x00000000#32 [(1, 0xFFFFFFFE#32), (2, 0x00000009#32)] 0 []) (fun t => (t.pc, t.getReg 2)) =
      some (0x00000004#32, 0x00000001#32) := by decide

/-- T47. -/
theorem test_sltiu_T47 :
    after (start 0x8000B113#32 0x00000000#32 [(1, 0xFFFFF7FF#32), (2, 0x00000009#32)] 0 []) (fun t => (t.pc, t.getReg 2)) =
      some (0x00000004#32, 0x00000001#32) := by decide

/-- T49. -/
theorem test_slli_T49 :
    after (start 0x01F09113#32 0x00000000#32 [(1, 0xDEADBEEF#32)] 0 []) (fun t => (t.pc, t.getReg 2)) =
      some (0x00000004#32, 0x80000000#32) := by decide

/-- T50. -/
theorem test_srli_T50 :
    after (start 0x01F0D113#32 0x00000000#32 [(1, 0xDEADBEEF#32)] 0 []) (fun t => (t.pc, t.getReg 2)) =
      some (0x00000004#32, 0x00000001#32) := by decide

/-- T51. -/
theorem test_srli_T51 :
    after (start 0x0010D113#32 0x00000000#32 [(1, 0xDEADBEEF#32)] 0 []) (fun t => (t.pc, t.getReg 2)) =
      some (0x00000004#32, 0x6F56DF77#32) := by decide

/-- T52. -/
theorem test_srai_T52 :
    after (start 0x41F0D113#32 0x00000000#32 [(1, 0xDEADBEEF#32)] 0 []) (fun t => (t.pc, t.getReg 2)) =
      some (0x00000004#32, 0xFFFFFFFF#32) := by decide

/-- T54. -/
theorem test_srai_T54 :
    after (start 0x4010D113#32 0x00000000#32 [(1, 0x5EADBEEF#32)] 0 []) (fun t => (t.pc, t.getReg 2)) =
      some (0x00000004#32, 0x2F56DF77#32) := by decide

/-- T56. -/
theorem test_lb_T56 :
    after (start 0x00008103#32 0x00000000#32 [(1, 0x00000100#32)] 0x100 [0x80, 0xFF, 0x7F, 0x01, 0xEF, 0xBE, 0xAD, 0xDE]) (fun t => (t.pc, t.getReg 2)) =
      some (0x00000004#32, 0xFFFFFF80#32) := by decide

/-- T72. -/
theorem test_lb_T72 :
    after (start 0xFFF02103#32 0x00000000#32 [(2, 0x00000009#32)] 0 []) (fun t => (t.pc, t.runState, t.log, t.getReg 2)) =
      some (0x00000000#32, .faulted, [.memoryFault .load 0xFFFFFFFF#32 0x00000000#32], 0x00000009#32) := by decide

/-- T59. -/
theorem test_lh_T59 :
    after (start 0x00009103#32 0x00000000#32 [(1, 0x00000100#32)] 0x100 [0x80, 0xFF, 0x7F, 0x01, 0xEF, 0xBE, 0xAD, 0xDE]) (fun t => (t.pc, t.getReg 2)) =
      some (0x00000004#32, 0xFFFFFF80#32) := by decide

/-- T62. -/
theorem test_lh_T62 :
    after (start 0x00109103#32 0x00000000#32 [(1, 0x00000100#32)] 0x100 [0x80, 0xFF, 0x7F, 0x01, 0xEF, 0xBE, 0xAD, 0xDE]) (fun t => (t.pc, t.getReg 2)) =
      some (0x00000004#32, 0x00007FFF#32) := by decide

/-- T64. -/
theorem test_lw_T64 :
    after (start 0x0030A103#32 0x00000000#32 [(1, 0x00000100#32)] 0x100 [0x80, 0xFF, 0x7F, 0x01, 0xEF, 0xBE, 0xAD, 0xDE]) (fun t => (t.pc, t.getReg 2)) =
      some (0x00000004#32, 0xADBEEF01#32) := by decide

/-- T69. -/
theorem test_lw_T69 :
    after (start 0x0000A103#32 0x00000000#32 [(1, 0x007FFFFD#32), (2, 0x00000009#32)] 0 []) (fun t => (t.pc, t.runState, t.log, t.getReg 1)) =
      some (0x00000000#32, .faulted, [.memoryFault .load 0x007FFFFD#32 0x00000000#32], 0x007FFFFD#32) := by decide

/-- T58. -/
theorem test_lbu_T58 :
    after (start 0x0000C103#32 0x00000000#32 [(1, 0x00000100#32)] 0x100 [0x80, 0xFF, 0x7F, 0x01, 0xEF, 0xBE, 0xAD, 0xDE]) (fun t => (t.pc, t.getReg 2)) =
      some (0x00000004#32, 0x00000080#32) := by decide

/-- T61. -/
theorem test_lhu_T61 :
    after (start 0x0000D103#32 0x00000000#32 [(1, 0x00000100#32)] 0x100 [0x80, 0xFF, 0x7F, 0x01, 0xEF, 0xBE, 0xAD, 0xDE]) (fun t => (t.pc, t.getReg 2)) =
      some (0x00000004#32, 0x0000FF80#32) := by decide

/-- T74. -/
theorem test_lhu_T74 :
    after (start 0x0000D103#32 0x00000000#32 [(1, 0x007FFFFF#32), (2, 0x00000009#32)] 0 []) (fun t => (t.pc, t.runState, t.log, t.getReg 1)) =
      some (0x00000000#32, .faulted, [.memoryFault .load 0x007FFFFF#32 0x00000000#32], 0x007FFFFF#32) := by decide

/-- T75. -/
theorem test_sb_T75 :
    after (start 0x00208023#32 0x00000000#32 [(1, 0x00000100#32), (2, 0xAABBCCDD#32)] 0x100 [0x11, 0x22, 0x33, 0x44, 0x55, 0x66, 0x77, 0x88]) (fun t => (t.pc, bytesAt t 0x100 8, t.getReg 1)) =
      some (0x00000004#32, [0xDD#8, 0x22#8, 0x33#8, 0x44#8, 0x55#8, 0x66#8, 0x77#8, 0x88#8], 0x00000100#32) := by decide

/-- T81. -/
theorem test_sb_T81 :
    after (start 0x000080A3#32 0x00000000#32 [(1, 0x00000100#32)] 0x100 [0x11, 0x22, 0x33, 0x44, 0x55, 0x66, 0x77, 0x88]) (fun t => (t.pc, bytesAt t 0x100 8, t.getReg 1)) =
      some (0x00000004#32, [0x11#8, 0x00#8, 0x33#8, 0x44#8, 0x55#8, 0x66#8, 0x77#8, 0x88#8], 0x00000100#32) := by decide

/-- T76. -/
theorem test_sh_T76 :
    after (start 0x00209023#32 0x00000000#32 [(1, 0x00000100#32), (2, 0xAABBCCDD#32)] 0x100 [0x11, 0x22, 0x33, 0x44, 0x55, 0x66, 0x77, 0x88]) (fun t => (t.pc, bytesAt t 0x100 8, t.getReg 1)) =
      some (0x00000004#32, [0xDD#8, 0xCC#8, 0x33#8, 0x44#8, 0x55#8, 0x66#8, 0x77#8, 0x88#8], 0x00000100#32) := by decide

/-- T79. -/
theorem test_sh_T79 :
    after (start 0x002091A3#32 0x00000000#32 [(1, 0x00000100#32), (2, 0xAABBCCDD#32)] 0x100 [0x11, 0x22, 0x33, 0x44, 0x55, 0x66, 0x77, 0x88]) (fun t => (t.pc, bytesAt t 0x100 8, t.getReg 1)) =
      some (0x00000004#32, [0x11#8, 0x22#8, 0x33#8, 0xDD#8, 0xCC#8, 0x66#8, 0x77#8, 0x88#8], 0x00000100#32) := by decide

/-- T78. -/
theorem test_sw_T78 :
    after (start 0x0020A1A3#32 0x00000000#32 [(1, 0x00000100#32), (2, 0xAABBCCDD#32)] 0x100 [0x11, 0x22, 0x33, 0x44, 0x55, 0x66, 0x77, 0x88]) (fun t => (t.pc, bytesAt t 0x100 8, t.getReg 1)) =
      some (0x00000004#32, [0x11#8, 0x22#8, 0x33#8, 0xDD#8, 0xCC#8, 0xBB#8, 0xAA#8, 0x88#8], 0x00000100#32) := by decide

/-- T84. -/
theorem test_sw_T84 :
    after (start 0x0020A023#32 0x00000000#32 [(1, 0x007FFFFE#32), (2, 0x01020304#32)] 0 []) (fun t => (t.pc, t.runState, t.log, bytesAt t 0x7FFFFC 4, t.getReg 1)) =
      some (0x00000000#32, .faulted, [.memoryFault .store 0x007FFFFE#32 0x00000000#32], [0x00#8, 0x00#8, 0x00#8, 0x00#8], 0x007FFFFE#32) := by decide

/-- T88. -/
theorem test_beq_T88 :
    after (start 0x00208863#32 0x00000040#32 [(1, 0x00000005#32), (2, 0x00000006#32)] 0 []) (fun t => (t.pc, t.getReg 1)) =
      some (0x00000044#32, 0x00000005#32) := by decide

/-- T104. -/
theorem test_beq_T104 :
    after (start 0xFE000CE3#32 0x00000004#32 [] 0 []) (fun t => (t.pc)) =
      some (0xFFFFFFFC#32) := by decide

/-- T89. -/
theorem test_bne_T89 :
    after (start 0x00209863#32 0x00000040#32 [(1, 0x00000005#32), (2, 0x00000006#32)] 0 []) (fun t => (t.pc, t.getReg 1)) =
      some (0x00000050#32, 0x00000005#32) := by decide

/-- T106. -/
theorem test_bne_T106 :
    after (start 0x00001163#32 0x00000040#32 [] 0 []) (fun t => (t.pc)) =
      some (0x00000044#32) := by decide

/-- T91. -/
theorem test_blt_T91 :
    after (start 0x0020C863#32 0x00000040#32 [(1, 0xFFFFFFFF#32), (2, 0x00000001#32)] 0 []) (fun t => (t.pc, t.getReg 1)) =
      some (0x00000050#32, 0xFFFFFFFF#32) := by decide

/-- T93. -/
theorem test_blt_T93 :
    after (start 0x0020C863#32 0x00000040#32 [(1, 0x00000005#32), (2, 0x00000005#32)] 0 []) (fun t => (t.pc, t.getReg 1)) =
      some (0x00000044#32, 0x00000005#32) := by decide

/-- T95. -/
theorem test_bge_T95 :
    after (start 0x0020D863#32 0x00000040#32 [(1, 0xFFFFFFFF#32), (2, 0x00000001#32)] 0 []) (fun t => (t.pc, t.getReg 1)) =
      some (0x00000044#32, 0xFFFFFFFF#32) := by decide

/-- T108. -/
theorem test_bge_T108 :
    after (start 0x7E20DFE3#32 0x00001000#32 [(1, 0x00000000#32), (2, 0x00000000#32)] 0 []) (fun t => (t.pc, t.getReg 1)) =
      some (0x00001FFE#32, 0x00000000#32) := by decide

/-- T97. -/
theorem test_bltu_T97 :
    after (start 0x0020E863#32 0x00000040#32 [(1, 0x00000001#32), (2, 0xFFFFFFFF#32)] 0 []) (fun t => (t.pc, t.getReg 1)) =
      some (0x00000050#32, 0x00000001#32) := by decide

/-- T99. -/
theorem test_bltu_T99 :
    after (start 0x0020E863#32 0x00000040#32 [(1, 0x00000005#32), (2, 0x00000005#32)] 0 []) (fun t => (t.pc, t.getReg 1)) =
      some (0x00000044#32, 0x00000005#32) := by decide

/-- T100. -/
theorem test_bgeu_T100 :
    after (start 0x0020F863#32 0x00000040#32 [(1, 0xFFFFFFFF#32), (2, 0x00000001#32)] 0 []) (fun t => (t.pc, t.getReg 1)) =
      some (0x00000050#32, 0xFFFFFFFF#32) := by decide

/-- T102. -/
theorem test_bgeu_T102 :
    after (start 0x0020F863#32 0x00000040#32 [(1, 0x00000005#32), (2, 0x00000005#32)] 0 []) (fun t => (t.pc, t.getReg 1)) =
      some (0x00000050#32, 0x00000005#32) := by decide

/-- T111. -/
theorem test_jal_T111 :
    after (start 0xFFDFF0EF#32 0x00000040#32 [] 0 []) (fun t => (t.pc, t.getReg 1)) =
      some (0x0000003C#32, 0x00000044#32) := by decide

/-- T116. -/
theorem test_jal_T116 :
    after (start 0x800000EF#32 0x00100000#32 [] 0 []) (fun t => (t.pc, t.getReg 1)) =
      some (0x00000000#32, 0x00100004#32) := by decide

/-- T120. -/
theorem test_jalr_T120 :
    after (start 0x000080E7#32 0x00000040#32 [(1, 0x00000200#32)] 0 []) (fun t => (t.pc, t.getReg 1)) =
      some (0x00000200#32, 0x00000044#32) := by decide

/-- T123. -/
theorem test_jalr_T123 :
    after ({ start 0x003100E7#32 0x00000040#32 [(2, 0x00000200#32)] 0 [] with cfg := { jalrClearBit0 := true } }) (fun t => (t.pc, t.getReg 1)) =
      some (0x00000202#32, 0x00000044#32) := by decide

/-- T127. -/
theorem test_lui_T127 :
    after (start 0xABCDE2B7#32 0x00000000#32 [(5, 0x00000FFF#32)] 0 []) (fun t => (t.pc, t.getReg 5)) =
      some (0x00000004#32, 0xABCDE000#32) := by decide

/-- T128. -/
theorem test_lui_T128 :
    after (start 0xABCDE037#32 0x00000000#32 [] 0 []) (fun t => (t.pc, t.getReg 0)) =
      some (0x00000004#32, 0x00000000#32) := by decide

/-- T133. -/
theorem test_auipc_T133 :
    after (start 0xFFFFF297#32 0x00000040#32 [] 0 []) (fun t => (t.pc, t.getReg 5)) =
      some (0x00000044#32, 0xFFFFF040#32) := by decide

/-- T134. -/
theorem test_auipc_T134 :
    after (start 0xFFFFF297#32 0x00001004#32 [] 0 []) (fun t => (t.pc, t.getReg 5)) =
      some (0x00001008#32, 0x00000004#32) := by decide

/-- T136. -/
theorem test_ecall_T136 :
    after (start 0x00000073#32 0x00000040#32 [(1, 0x00000007#32)] 0 []) (fun t => (t.pc, t.getReg 1)) =
      some (0x00000044#32, 0x00000007#32) := by decide

/-- T138. -/
theorem test_ebreak_T138 :
    after (start 0x001100F3#32 0x00000040#32 [(1, 0x00000007#32)] 0 []) (fun t => (t.pc, t.runState, t.getReg 1)) =
      some (0x00000040#32, .halted, 0x00000007#32) := by decide

/-- T142. -/
theorem test_unimp_T142 :
    after (start 0x0FF0000F#32 0x00000040#32 [(1, 0x00000007#32), (2, 0x00000009#32)] 0 []) (fun t => (t.pc, t.log, t.getReg 1)) =
      some (0x00000044#32, [.unimplemented 0x00000040#32 0x0FF0000F#32], 0x00000007#32) := by decide

/-- T149. -/
theorem test_unimp_T149 :
    after (start 0x4240D113#32 0x00000040#32 [(1, 0x00000007#32), (2, 0x00000009#32)] 0 []) (fun t => (t.pc, t.log, t.getReg 1)) =
      some (0x00000044#32, [.unimplemented 0x00000040#32 0x4240D113#32], 0x00000007#32) := by decide

/-- T166. -/
theorem test_abort_T166 :
    after ({ start 0x00000000#32 0x00000040#32 [(1, 0x00000007#32)] 0 [] with cfg := { unimpPolicy := .logAndAbort } }) (fun t => (t.pc, t.runState, t.log, t.getReg 1)) =
      some (0x00000040#32, .faulted, [.unimplemented 0x00000040#32 0x00000000#32], 0x00000007#32) := by decide

/-- T167. -/
theorem test_fetch_fault_T167 :
    after (start 0x00000000#32 0x00800000#32 [(1, 0x00000007#32)] 0 []) (fun t => (t.pc, t.runState, t.log, t.getReg 1)) =
      some (0x00800000#32, .faulted, [.memoryFault .fetch 0x00800000#32 0x00800000#32], 0x00000007#32) := by decide

/-- T168. -/
theorem test_fetch_fault_T168 :
    after (start 0x00000000#32 0x007FFFFE#32 [(1, 0x00000007#32)] 0 []) (fun t => (t.pc, t.runState, t.log, t.getReg 1)) =
      some (0x007FFFFE#32, .faulted, [.memoryFault .fetch 0x007FFFFE#32 0x007FFFFE#32], 0x00000007#32) := by decide

/-- T170. -/
theorem test_fetch_last_word_T170 :
    after (start 0x00100093#32 0x007FFFFC#32 [] 0 []) (fun t => (t.pc, t.getReg 1)) =
      some (0x00800000#32, 0x00000001#32) := by decide

/-- T172. -/
theorem test_fetch_odd_T172 :
    after (start 0x00100093#32 0x00000041#32 [] 0 []) (fun t => (t.pc, t.getReg 1)) =
      some (0x00000045#32, 0x00000001#32) := by decide


/-! ### The word where the step fetches -/

/-- T33's word as the first instruction after reset, and T140's all zero word in the memory reset leaves. -/
theorem test_first_instruction_after_reset :
    decodeTableWord 32 0x00000013 = some (.addi 0 0 0) ∧
    after (State.reset.withFetchWord 32 0x7FF00093) (fun t => (t.pc, t.getReg 1)) = some (4#32, 2047#32) ∧
    after State.reset (fun t => (t.pc, t.log)) = some (4#32, [.unimplemented 0#32 0#32]) := by
  decide

/-- R36 and R23: a snapshot, and the names of x2 and x8. -/
theorem test_snapshot :
    (start 0#32 64#32 [(31, 7#32)] 0 []).snapshot.pc = 64#32 ∧
    (start 0#32 64#32 [(31, 7#32)] 0 []).snapshot.x.toList[31]? = some 7#32 ∧
    abiName 2 = "sp" ∧ abiName 8 = "s0" ∧ abiName 31 = "t6" ∧ archName 8 = "x8" := by
  decide

/-- R80: RET is `jalr x0, 0(x1)` (T121's word), NOP is T33's word. -/
theorem test_pseudo : encode pseudoRet = 0x00008067#32 ∧ encode pseudoNop = 0x00000013#32 := by decide

/-! ### Every hypothesis is met: one witness for each statement that has hypotheses, at the ends of its ranges -/

/-- The smallest memory. -/
def tiny : Config := { memSize := 4 }

/-- LW x2, 0(x1) (T68) at address 0, with x1 the argument. -/
def loader (x1 : Word) : State := start 0x0000A103#32 0#32 [(1, x1)] 0x7FFFFC [0x01, 0x02, 0x03, 0x04]

/-- SW x2, 0(x1) (T83) at address 0, with x1 the argument. -/
def storer (x1 : Word) : State := start 0x0020A023#32 0#32 [(1, x1), (2, 0x01020304#32)] 0 []

theorem test_loader_meets_invariant : (loader 0x007FFFFC#32).Inv :=
  ⟨by decide, by decide, by decide, by
    show (∀ r ∈ ([] : List Report), _) ∧ _
    exact ⟨by simp, fun _ => rfl⟩⟩

theorem test_witness_ResetMeetsTheInvariant :
    Config.default.wf ∧ tiny.wf ∧ ({ memSize := 2 ^ 32 } : Config).wf := by decide

theorem test_witness_StepKeepsTheInvariant :
    ∃ s t : State, s.Inv ∧ step s = .next t ∧ t ≠ s :=
  ⟨loader 0x007FFFFC#32, _, test_loader_meets_invariant, rfl, by decide⟩

/-- Both clauses of the boot statement, at an image of exactly MEM_SIZE bytes and one byte longer. -/
theorem test_witness_BootPlacesTheImageOrRefusesIt :
    tiny.memSize < [1#8, 2, 3, 4, 5].length ∧ [1#8, 2, 3, 4].length ≤ tiny.memSize ∧ tiny.wf := by decide

theorem test_witness_BootWithoutImageHaltsAtTheFirstStep : tiny.wf ∧ Config.default.wf := by decide

/-- Each branch of R90: stopped, fetch fault, unimplemented under both policies, an instruction. -/
theorem test_witness_StepFetchesDispatchesAndExecutes :
    (State.reset.halt).runState ≠ .running ∧
    (State.reset.runState = .running ∧ (State.reset.setPc 0x7FFFFD#32).fetch = none) ∧
    (State.reset.fetch = some 0#32 ∧ decodeWord 0#32 = .error .unknownOpcode ∧
      State.reset.cfg.unimpPolicy = .logAndContinue) ∧
    ((State.resetWith { unimpPolicy := .logAndAbort }).fetch = some 0#32 ∧
      (State.resetWith { unimpPolicy := .logAndAbort }).cfg.unimpPolicy = .logAndAbort) ∧
    ((loader 0#32).runState = .running ∧ (loader 0#32).fetch = some 0x0000A103#32 ∧
      decodeWord 0x0000A103#32 = .ok (.lw 2 1 0)) ∧
    ∃ t, step (loader 0#32) = .next t :=
  ⟨by decide, by decide, ⟨by decide, rfl, rfl⟩, by decide, ⟨by decide, by decide, rfl⟩, _, rfl⟩

theorem test_witness_HaltedAndFaultedAreStuckByName :
    State.reset.halt.runState = .halted ∧ (State.reset.raiseMemoryFault .fetch 0#32).runState = .faulted := by decide

/-- The last fetch inside the memory and the first beyond it. -/
theorem test_witness_FetchReadsTheFourBytesAtPc :
    (State.reset.setPc 0x7FFFFC#32).pc.toNat + 4 ≤ State.reset.cfg.memSize ∧
    State.reset.cfg.memSize < (State.reset.setPc 0x7FFFFD#32).pc.toNat + 4 ∧
    (State.reset.setPc 0x7FFFFD#32).runState = .running := by decide

/-- A next state by every event of R201 and by none. -/
theorem test_witness_EveryStepEndsInAListedEventOrNone :
    (∃ t, step (State.reset.setPc 0x7FFFFD#32) = .next t) ∧ (∃ t, step State.reset = .next t) ∧
    (∃ t, step (loader 0x007FFFFD#32) = .next t) ∧ (∃ t, step (storer 0x007FFFFD#32) = .next t) ∧
    (∃ t, step (start 0x00100073#32 0#32 [] 0 []) = .next t) ∧ ∃ t, step (storer 0x007FFFFC#32) = .next t :=
  ⟨⟨_, rfl⟩, ⟨_, rfl⟩, ⟨_, rfl⟩, ⟨_, rfl⟩, ⟨_, rfl⟩, _, rfl⟩

theorem test_witness_DecodingAnEncodedInstructionGivesItBack :
    (Instr.jal 31 (-1048576)).wf = true ∧ (Instr.bge 1 2 4094).wf = true ∧ (Instr.sw 1 2 (-2048)).wf = true ∧
      (Instr.lui 5 0xFFFFF000#32).wf = true := by decide

theorem test_witness_EncodingADecodedWordGivesItBack :
    decodeWord 0x002081B3#32 = .ok (.add 3 1 2) ∧ (Instr.add 3 1 2 ≠ .ecall ∧ Instr.add 3 1 2 ≠ .ebreak) ∧
    decodeWord 0x001100F3#32 = .ok .ebreak ∧ decodeWord 0x00000FF3#32 = .ok .ecall :=
  ⟨rfl, by decide, rfl, rfl⟩

theorem test_witness_DecodedInstructionsAreWellFormed : decodeWord 0x800000EF#32 = .ok (.jal 1 (-1048576)) := rfl

/-- A word that decodes, its row in the table, and a word that meets no row. -/
theorem test_witness_DispatchAgreesWithTheOpcodeTable :
    decodeWord 0x001100F3#32 = .ok .ebreak ∧ Instr.ebreak.row ∈ opcodeTable ∧ Instr.ebreak.row.holds 0x001100F3#32 ∧
    (∃ reason, decodeWord 0x02208133#32 = .error reason) ∧ ∀ row ∈ opcodeTable, ¬ row.holds 0x02208133#32 :=
  ⟨rfl, by decide, by decide, ⟨_, rfl⟩, by decide⟩

/-- The ends of the two ranges of bits. -/
theorem test_witness_ImmediatesOfIAndSFormat : (0 : Nat) ≤ 10 ∧ (10 : Nat) ≤ 10 ∧ (11 : Nat) ≤ 11 ∧ (11 : Nat) ≤ 31 ∧
    (31 : Nat) ≤ 31 := by decide

/-- The ends of the ranges of widths and of values, and both sides of the sign. -/
theorem test_witness_TwoShiftsSignExtendEveryWidth :
    ((1 : Nat) ≤ 1 ∧ (1 : Nat) ≤ 32) ∧ ((1 : Nat) ≤ 32 ∧ (32 : Nat) ≤ 32) ∧ (4095 : Nat) < 4096 ∧ (2048 : Nat) < 4096 ∧
    (0 : Nat) < 4096 := by decide

/-- The ends of each format's range. -/
theorem test_witness_PlacedOffsetsAreReconstructedExactly :
    ((-2048 : Int) ≤ -2048 ∧ (-2048 : Int) ≤ 2047) ∧ ((-2048 : Int) ≤ 2047 ∧ (2047 : Int) ≤ 2047) ∧
    ((-4096 : Int) ≤ -4096 ∧ (-4096 : Int) % 2 = 0) ∧ ((4094 : Int) ≤ 4094 ∧ (4094 : Int) % 2 = 0) ∧
    ((-1048576 : Int) ≤ -1048576 ∧ (-1048576 : Int) % 2 = 0) ∧ (1048574 : Int) ≤ 1048574 ∧ (1048574 : Int) % 2 = 0 := by
  decide

/-- Every width, at the last address inside the memory and the first beyond it. -/
theorem test_witness_MemReadIsTheLittleEndianSum :
    ∀ n ∈ [1, 2, 4], (n = 1 ∨ n = 2 ∨ n = 4) ∧ (BitVec.ofNat 32 (0x800000 - n)).toNat + n ≤ State.reset.cfg.memSize ∧
      State.reset.cfg.memSize < (BitVec.ofNat 32 (0x800001 - n)).toNat + n := by decide

theorem test_witness_MemWriteSetsExactlyItsBytes :
    (loader 0#32).mem.wf ∧
    ∀ n ∈ [1, 2, 4], (n = 1 ∨ n = 2 ∨ n = 4) ∧ (BitVec.ofNat 32 (0x800000 - n)).toNat + n ≤ State.reset.cfg.memSize ∧
      State.reset.cfg.memSize < (BitVec.ofNat 32 (0x800001 - n)).toNat + n := by decide

theorem test_witness_NarrowReadsSeeTheBytesOfAWrittenWord :
    ∃ t, (loader 0#32).mem.wf ∧ (loader 0#32).cfg.wf ∧ (loader 0#32).memWrite 0x007FFFFC#32 4 7#32 = some t ∧
      (3 : Nat) ≤ 3 ∧ (2 : Nat) ≤ 2 :=
  ⟨_, by decide, by decide, rfl, by decide, by decide⟩

theorem test_witness_ByteLoadsExtendTheByte :
    ((loader 0x007FFFFF#32).effAddr 1 0).toNat + 1 ≤ (loader 0x007FFFFF#32).cfg.memSize := by decide

theorem test_witness_HalfwordLoadsExtendTheTwoBytes :
    ((loader 0x007FFFFF#32).effAddr 1 (-1)).toNat + 2 ≤ (loader 0x007FFFFF#32).cfg.memSize := by decide

theorem test_witness_WordLoadTakesTheFourBytes :
    ((loader 0x007FFFFC#32).effAddr 1 0).toNat + 4 ≤ (loader 0x007FFFFC#32).cfg.memSize := by decide

/-- The first address of each width whose access reaches beyond the memory. -/
theorem test_witness_LoadsBeyondTheMemoryFault :
    (loader 0x00800000#32).cfg.memSize < ((loader 0x00800000#32).effAddr 1 0).toNat + 1 ∧
    (loader 0x007FFFFF#32).cfg.memSize < ((loader 0x007FFFFF#32).effAddr 1 0).toNat + 2 ∧
    (loader 0x007FFFFD#32).cfg.memSize < ((loader 0x007FFFFD#32).effAddr 1 0).toNat + 4 := by decide

theorem test_witness_StoresWriteTheLowBytesAndNothingElse :
    (storer 0x007FFFFC#32).mem.wf ∧
    ((storer 0x007FFFFC#32).effAddr 1 3).toNat + 1 ≤ (storer 0x007FFFFC#32).cfg.memSize ∧
    ((storer 0x007FFFFC#32).effAddr 1 2).toNat + 2 ≤ (storer 0x007FFFFC#32).cfg.memSize ∧
    ((storer 0x007FFFFC#32).effAddr 1 0).toNat + 4 ≤ (storer 0x007FFFFC#32).cfg.memSize := by decide

theorem test_witness_StoresBeyondTheMemoryFault :
    (storer 0x007FFFFC#32).cfg.memSize < ((storer 0x007FFFFC#32).effAddr 1 4).toNat + 1 ∧
    (storer 0x007FFFFC#32).cfg.memSize < ((storer 0x007FFFFC#32).effAddr 1 3).toNat + 2 ∧
    (storer 0x007FFFFC#32).cfg.memSize < ((storer 0x007FFFFC#32).effAddr 1 1).toNat + 4 := by decide

theorem test_witness_LoadingAStoredWordReturnsIt :
    (storer 0x007FFFFC#32).mem.wf ∧
    ((storer 0x007FFFFC#32).effAddr 1 0).toNat + 4 ≤ (storer 0x007FFFFC#32).cfg.memSize := by decide

theorem test_witness_AStoreIsSeenByTheNextFetch :
    (storer 4#32).mem.wf ∧ (storer 4#32).effAddr 1 0 = (storer 4#32).pc + 4#32 ∧
    ((storer 4#32).effAddr 1 0).toNat + 4 ≤ (storer 4#32).cfg.memSize := by decide

/-- The word of T117 at pc 0: an even target beyond the memory. -/
theorem test_witness_JalLinksAndJumpsRelative :
    0xFFDFF0EF#32 &&& 0x0000007F#32 = 0x0000006F#32 ∧ decodeWord 0xFFDFF0EF#32 = .ok (.jal 1 (-4)) ∧
    (-4 : Word).toNat % 2 = 0 ∧ State.reset.pc.toNat % 2 = 0 ∧ State.reset.runState = .running ∧
    State.reset.cfg.memSize < (Spec.add32 State.reset.pc (-4)).toNat + 4 := ⟨rfl, rfl, by decide⟩

theorem test_witness_JalrLinksAndJumpsToTheOldBase :
    State.reset.cfg.jalrClearBit0 = false ∧ (State.resetWith { jalrClearBit0 := true }).cfg.jalrClearBit0 = true := by
  decide

theorem test_witness_LuiWritesTheUpperImmediate :
    0xABCDE2B7#32 &&& 0x0000007F#32 = 0x00000037#32 ∧ decodeWord 0xABCDE2B7#32 = .ok (.lui 5 0xABCDE000#32) :=
  ⟨rfl, rfl⟩

/-- Both directions of both tests. -/
theorem test_witness_EcallAndEbreakWords :
    0x00000FF3#32 &&& 0xFFF0707F#32 = 0x00000073#32 ∧ 0x001100F3#32 &&& 0xFFF0707F#32 = 0x00100073#32 ∧
    decodeWord 0x00000FF3#32 = .ok .ecall ∧ decodeWord 0x001100F3#32 = .ok .ebreak := ⟨rfl, rfl, rfl, rfl⟩

theorem test_witness_RegisterZeroReadsZero :
    ∃ t, exec (.add 0 1 2) (storer 0#32) = .next t ∧ (Instr.add 0 1 2).dest = some 0#5 := ⟨_, rfl, rfl⟩

theorem test_witness_OnlyTheDestinationRegisterChanges :
    (∃ t, exec (.lw 2 1 0) (loader 0x007FFFFC#32) = .next t ∧ (Instr.lw 2 1 0).dest ≠ some 1#5) ∧
    ∃ t, State.reset.fetch = some 0#32 ∧ decodeWord 0#32 = .error .unknownOpcode ∧ step State.reset = .next t :=
  ⟨⟨_, rfl, by decide⟩, _, by decide, rfl, rfl⟩

theorem test_witness_OnlyStoresChangeMemory :
    (∃ t, exec (.lw 2 1 0) (loader 0x007FFFFC#32) = .next t ∧ (Instr.lw 2 1 0).stores = none) ∧
    ∃ t, step (loader 0x007FFFFC#32) = .next t ∧
      ∀ w i, (loader 0x007FFFFC#32).fetch = some w → decodeWord w = .ok i → i.stores = none := by
  refine ⟨⟨_, rfl, rfl⟩, _, rfl, fun w i hw hi => ?_⟩
  have : (loader 0x007FFFFC#32).fetch = some 0x0000A103#32 := by decide
  obtain rfl : w = 0x0000A103#32 := by simpa [this] using hw.symm
  obtain rfl : i = .lw 2 1 0 := by
    have h : decodeWord 0x0000A103#32 = .ok (.lw 2 1 0) := rfl
    simpa [h] using hi.symm
  rfl

/-- A step into HALTED by EBREAK, and a step that stays RUNNING. -/
theorem test_witness_OnlyEbreakHalts :
    (∃ t, step (start 0x001100F3#32 0#32 [] 0 []) = .next t ∧ t.runState = .halted) ∧
    ∃ t, step (loader 0x007FFFFC#32) = .next t ∧ t.runState = .running := ⟨⟨_, rfl, by decide⟩, _, rfl, by decide⟩

theorem test_witness_TheLogGrowsByAtMostOneRecord :
    (∃ t, step State.reset = .next t ∧ t.log.length = 1) ∧
    ∃ t, step (loader 0x007FFFFC#32) = .next t ∧ t.log = [] := ⟨⟨_, rfl, by decide⟩, _, rfl, by decide⟩

/-- A register that is no source, once apart from the destination and once the destination itself. -/
theorem test_witness_RegistersNotNamedAsSourcesAreNotRead :
    3#5 ∉ (Instr.lw 2 1 0).sources ∧ 2#5 ∉ (Instr.lw 2 1 0).sources ∧ (Instr.lw 2 1 0).dest = some 2#5 := by decide

theorem test_witness_PcStaysEvenWhenJalrClearsBitZero :
    ∃ t, (State.resetWith { jalrClearBit0 := true }).cfg.jalrClearBit0 = true ∧
      (State.resetWith { jalrClearBit0 := true }).pc.toNat % 2 = 0 ∧
      step (State.resetWith { jalrClearBit0 := true }) = .next t := ⟨_, rfl, rfl, rfl⟩

end Sys2Proof.Tests
end

section
/-! PROOFS. The register frame of one instruction, and `x0` (spec/10_state.md R21, R22). -/

namespace Sys2Proof.Machine

/-- The register frame of `Effect`: the one case that writes a register writes the destination. -/
theorem Effect.getReg_of_dest_ne {i : Instr} {s t : State} (h : Effect i s t) {r : RegIdx} (hr : i.dest ≠ some r) :
    t.getReg r = s.getReg r := by
  cases h with
  | writes rd v p hd _ =>
    have hne : r ≠ rd := fun e => hr (e ▸ hd)
    by_cases hz : r = 0#5
    · simp [hz]
    · simp [getReg_setReg, hz, hne]
  | moves => exact getReg_setPc ..
  | stores => simp
  | loadFault | storeFault => exact getReg_raiseMemoryFault ..
  | halts => exact getReg_halt ..

/-- R22: with destination `x0`, every other register is outside the destination, and `x0` reads 0 on both sides. -/
theorem Effect.sameRegs_of_dest_zero {i : Instr} {s t : State} (h : Effect i s t) (hd : i.dest = some 0#5) :
    SameRegs s t := by
  intro r
  by_cases hz : r = 0#5
  · simp [hz]
  · exact h.getReg_of_dest_ne fun e => hz (Option.some.inj (e.symm.trans hd))

end Sys2Proof.Machine

namespace Sys2Proof

open Machine

/-- Settles O50: `x[0]` has no slot to change, and a write to it is discarded. -/
theorem registerZeroReadsZero : Obligations.RegisterZeroReadsZero :=
  ⟨getReg_zero, fun _ _ t h => ⟨getReg_zero t, (effect_of_exec h).sameRegs_of_dest_zero⟩⟩

end Sys2Proof
end

section
/-! PROOFS. The memory primitives `MemRead` and `MemWrite` (spec/20_memory.md R42, R43). -/

namespace Sys2Proof.Machine

/-- R42: peeling the byte at `a` off the sum leaves 256 times the sum of the bytes from `a + 1`. -/
theorem toNat_readLE (m : Memory) (a n : Nat) :
    (m.readLE a n).toNat = ((List.range n).map fun i => (m.readByte (a + i)).toNat * 2 ^ (8 * i)).sum := by
  induction n generalizing a with
  | zero => rfl
  | succ n ih =>
    have hhead : (m.readLE a (n + 1)).toNat = (m.readLE (a + 1) n).toNat * 2 ^ 8 + (m.readByte a).toNat := by
      refine (BitVec.toNat_append (m.readLE (a + 1) n) (m.readByte a)).trans ?_
      rw [← Nat.shiftLeft_add_eq_or_of_lt (m.readByte a).isLt, Nat.shiftLeft_eq]
    have hterm (i : Nat) : (m.readByte (a + (i + 1))).toNat * 2 ^ (8 * (i + 1)) =
        (m.readByte (a + 1 + i)).toNat * 2 ^ (8 * i) * 2 ^ 8 := by
      rw [show a + (i + 1) = a + 1 + i by omega, Nat.mul_succ, pow_add, mul_assoc]
    simp only [hhead, ih, List.range_succ_eq_map, List.map_cons, List.map_map, Function.comp_def, List.sum_cons,
      Nat.succ_eq_add_one, hterm, List.sum_map_mul_right]
    simp [add_comm]

end Sys2Proof.Machine

namespace Sys2Proof

open Machine

/-- Settles O30: beyond the memory `MemRead` answers nothing, within it the bytes' little-endian value. -/
theorem memReadIsTheLittleEndianSum : Obligations.MemReadIsTheLittleEndianSum :=
  fun s addr n _ => ⟨fun hout => memRead_outOfBounds (Nat.not_le.2 hout),
    fun hin => ⟨_, memRead_inBounds hin, toNat_readLE s.mem addr.toNat n⟩⟩

/-- Settles O31: within the memory the new state is the old one with `writeLE`'s memory, whose every byte
`readByte_writeLE` gives. -/
theorem memWriteSetsExactlyItsBytes : Obligations.MemWriteSetsExactlyItsBytes := by
  intro s addr v n hwf _
  refine ⟨fun hout => memWrite_outOfBounds (Nat.not_le.2 hout), fun hin => ⟨_, memWrite_inBounds hin, rfl, ?_, ?_⟩⟩
  · intro i hi
    rw [setMem_mem, readByte_writeLE hwf, if_pos (by omega), Nat.add_sub_cancel_left]
  · intro a ha
    rw [setMem_mem, readByte_writeLE hwf, if_neg (by omega)]

end Sys2Proof
end

section
/-! PROOFS. The fields and the I-, S- and U-type immediates of a word (spec/30_encoding.md R62 to R67), over the
sign extension by two shifts (R69). -/

namespace Sys2Proof

/-! ### Sign extension (R8, R69) -/

/-- R8: the `2^32 - 2^N` that `sext_N` adds when the sign bit is 1 are the ones above it. -/
theorem Spec.sext_eq_signExtend {N : Nat} (hN : N ≤ 32) (v : BitVec N) : Spec.sext v = v.signExtend 32 := by
  have hpow : 2 ^ N ≤ 2 ^ 32 := Nat.pow_le_pow_right (by omega) hN
  have hv : v.toNat < 2 ^ N := v.isLt
  apply BitVec.eq_of_toNat_eq
  rw [Spec.sext, ← BitVec.msb_eq_getLsbD_last, BitVec.toNat_ofNat, BitVec.toNat_signExtend, BitVec.toNat_setWidth,
    Nat.mod_eq_of_lt (hv.trans_le hpow)]
  split
  · rw [Nat.add_sub_assoc hpow, Nat.mod_eq_of_lt (by omega)]
  · exact Nat.mod_eq_of_lt (hv.trans_le hpow)

/-- R69: the left shift brings bit `N - 1` to bit 31, whose copies the arithmetic right shift brings in. -/
theorem signextShifts_setWidth {N : Nat} (h1 : 1 ≤ N) (hN : N ≤ 32) (v : BitVec N) :
    signextShifts (v.setWidth 32) (32 - N) = v.signExtend 32 := by
  have hmsb : (v.setWidth 32 <<< (32 - N)).msb = v.msb := by
    rw [BitVec.msb_eq_getLsbD_last, BitVec.msb_eq_getLsbD_last, BitVec.getLsbD_shiftLeft, BitVec.getLsbD_setWidth,
      show 32 - 1 - (32 - N) = N - 1 by omega]
    simp [show ¬ 31 < 32 - N by omega, show N - 1 < 32 by omega]
  apply BitVec.eq_of_getLsbD_eq
  intro i hi
  rw [signextShifts, BitVec.getLsbD_sshiftRight, hmsb, BitVec.getLsbD_signExtend]
  by_cases hiN : i < N
  · simp [hi, hiN, show 32 - N + i < 32 by omega]
  · simp [hi, hiN, show ¬ 32 - N + i < 32 by omega]

/-- R64, R65: the range of a sign-extended 12-bit field. -/
theorem toInt_signExtend_range12 (v : BitVec 12) :
    -2048 ≤ (v.signExtend 32).toInt ∧ (v.signExtend 32).toInt ≤ 2047 := by
  simpa [fitsImm12] using fitsImm12_signExtend v

/-! ### Fields as masked and shifted bits (R62, R63) -/

/-- R63: taking `l` bits from bit `k` on is shifting right by `k` and masking with `l` ones. -/
theorem setWidth_extractLsb'_eq_mask (w : Word) (k : Nat) {l : Nat} (hl : l ≤ 32) :
    (w.extractLsb' k l).setWidth 32 = (w >>> k) &&& BitVec.ofNat 32 (2 ^ l - 1) := by
  have hpow : 2 ^ l ≤ 2 ^ 32 := Nat.pow_le_pow_right (by omega) hl
  have hlt : w.toNat >>> k % 2 ^ l < 2 ^ l := Nat.mod_lt _ (by positivity)
  apply BitVec.eq_of_toNat_eq
  rw [BitVec.toNat_setWidth, BitVec.extractLsb'_toNat, BitVec.toNat_and, BitVec.toNat_ushiftRight, BitVec.toNat_ofNat,
    Nat.mod_eq_of_lt (hlt.trans_le hpow), Nat.mod_eq_of_lt (a := 2 ^ l - 1) (by omega), Nat.and_two_pow_sub_one_eq_mod]

/-- Settles O16: every field is one `extractLsb'`. -/
theorem fieldsAreMaskedAndShiftedBitsOfTheWord : Obligations.FieldsAreMaskedAndShiftedBitsOfTheWord := fun w =>
  ⟨BitVec.extractLsb'_toNat 0 7 w,
    setWidth_extractLsb'_eq_mask w 7 (l := 5) (by decide),
    setWidth_extractLsb'_eq_mask w 12 (l := 3) (by decide),
    setWidth_extractLsb'_eq_mask w 15 (l := 5) (by decide),
    setWidth_extractLsb'_eq_mask w 20 (l := 5) (by decide),
    setWidth_extractLsb'_eq_mask w 25 (l := 7) (by decide)⟩

/-! ### The immediates (R64, R65, R67) -/

/-- R64: bits 11:0 of the I-type immediate are `inst[31:20]`, the bits above copies of `inst[31]`. -/
theorem getLsbD_immI (w : Word) {k : Nat} (hk : k < 32) : (immI w).getLsbD k = w.getLsbD (20 + min k 11) := by
  rw [immI, BitVec.getLsbD_signExtend, BitVec.msb_eq_getLsbD_last]
  by_cases h : k < 12
  · simp [hk, h, show min k 11 = k by omega]
  · simp [hk, h, show min k 11 = 11 by omega]

/-- R64: bits `k` to `k + l - 1` of the immediate, within bits 11:0, are the word's from bit `20 + k` on. -/
theorem extractLsb'_immI (w : Word) {k l : Nat} (h : k + l ≤ 12) :
    (immI w).extractLsb' k l = w.extractLsb' (20 + k) l := by
  apply BitVec.eq_of_getLsbD_eq
  intro i hi
  rw [BitVec.getLsbD_extractLsb', BitVec.getLsbD_extractLsb', getLsbD_immI w (by omega),
    show 20 + min (k + i) 11 = 20 + k + i by omega]

/-- Settles O17: both immediates are sign extensions of a 12-bit field, S-type's one joined from two. -/
theorem immediatesOfIAndSFormat : Obligations.ImmediatesOfIAndSFormat := by
  intro w
  obtain ⟨hImin, hImax⟩ := toInt_signExtend_range12 (w.extractLsb' 20 12)
  obtain ⟨hSmin, hSmax⟩ := toInt_signExtend_range12 (w.extractLsb' 25 7 ++ w.extractLsb' 7 5)
  refine ⟨(Spec.sext_eq_signExtend (by decide) _).symm, (signextShifts_setWidth (by decide) (by decide) _).symm,
    fun k hk => ?_, fun k h1 h2 => ?_, hImin, hImax, ?_, extractLsb'_immI w (by decide), extractLsb'_immI w (by decide),
    (Spec.sext_eq_signExtend (by decide) _).symm, ?_, hSmin, hSmax⟩
  · rw [getLsbD_immI w (by omega), Nat.min_eq_left (by omega)]
  · rw [getLsbD_immI w (by omega), Nat.min_eq_right h1]
  · rw [shamtOf, BitVec.extractLsb'_toNat, Nat.shiftRight_eq_div_pow]
  · rw [← BitVec.setWidth_append_eq_shiftLeft_setWidth_or]
    exact (signextShifts_setWidth (N := 12) (by decide) (by decide) _).symm

/-- R67: the mask drops the low 12 bits, which is twenty bits above twelve zeros. -/
theorem immU_eq_mask (w : Word) : immU w = w &&& 0xFFFFF000#32 := by
  apply BitVec.eq_of_getLsbD_eq
  intro i hi
  simp only [immU, BitVec.getLsbD_append, BitVec.getLsbD_extractLsb', BitVec.getLsbD_and]
  interval_cases i <;> simp

/-- R67: a word with twelve zeros below is a multiple of 4096. -/
theorem toNat_immU (w : Word) : (immU w).toNat = (w.extractLsb' 12 20).toNat * 4096 := by
  rw [immU, BitVec.toNat_append, Nat.shiftLeft_eq]
  exact Nat.or_zero _

/-- Settles O19: the second form is `immU`'s own. -/
theorem upperImmediateKeepsTheUpperTwentyBits : Obligations.UpperImmediateKeepsTheUpperTwentyBits := fun w =>
  ⟨immU_eq_mask w, rfl, by rw [toNat_immU, Nat.mul_mod_left]⟩

end Sys2Proof
end

section
/-! PROOFS. The step as fetch, dispatch and execute (spec/40_cycle.md R90), and the fetch (R91). -/

namespace Sys2Proof.Machine

/-- R91: within the memory the fetch answers the four bytes at pc, the byte at pc least significant. -/
theorem fetch_inBounds {s : State} (h : s.pc.toNat + 4 ≤ s.cfg.memSize) :
    s.fetch = some (s.mem.readByte (s.pc.toNat + 3) ++ s.mem.readByte (s.pc.toNat + 2) ++
      s.mem.readByte (s.pc.toNat + 1) ++ s.mem.readByte s.pc.toNat) := by
  rw [State.fetch, memRead_inBounds h, readLE_four]

/-- R91: a fetch that reaches beyond the memory answers no word. -/
theorem fetch_outOfBounds {s : State} (h : s.cfg.memSize < s.pc.toNat + 4) : s.fetch = none :=
  memRead_outOfBounds (Nat.not_le.2 h)

/-- R91, R207: a step whose fetch fails raises the fetch fault. -/
theorem step_of_fetch_none {s : State} (hr : s.runState = .running) (hf : s.fetch = none) :
    step s = .next (s.raiseMemoryFault .fetch s.pc) := by
  simp [step, hr, hf]

/-- R95: a step whose word decodes to no instruction takes the unimplemented path. -/
theorem step_of_decodeWord_error {s : State} {w : Word} {r : Reject} (hr : s.runState = .running)
    (hf : s.fetch = some w) (hd : decodeWord w = .error r) : step s = .next (s.unimplemented w) := by
  simp [step, hr, hf, hd]

/-- R203: what raising a MemoryFault changes and leaves unchanged. -/
theorem raiseMemoryFault_faultedBy (s : State) (kind : AccessKind) (addr : Word) :
    FaultedBy s (s.raiseMemoryFault kind addr) kind addr where
  regs r := getReg_raiseMemoryFault s r kind addr
  pc := rfl
  mem _ := rfl
  cfg := rfl
  runState := rfl
  log := rfl

end Sys2Proof.Machine

namespace Sys2Proof

open Machine

/-- Settles O6: each branch of R90 is the step lemma of that branch, with its event written out field by field. -/
theorem stepFetchesDispatchesAndExecutes : Obligations.StepFetchesDispatchesAndExecutes := by
  refine fun s => ⟨fun hstopped t ht => hstopped (step_cases ht).1,
    fun hr => ⟨step_of_fetch_none hr, fun w reason hf hd => ?unimplemented, fun w i => step_running hr⟩,
    fun t _ => getReg_zero t⟩
  case unimplemented =>
    rw [step_of_decodeWord_error hr hf hd]
    exact ⟨fun hc => congrArg _ (unimplemented_continue s w hc), fun ha => congrArg _ (unimplemented_abort s w ha)⟩

/-- Settles O8: within the memory the fetch reads the four bytes; beyond it there is no word, and the step raises the
fetch fault. -/
theorem fetchReadsTheFourBytesAtPc : Obligations.FetchReadsTheFourBytesAtPc := fun s =>
  ⟨fetch_inBounds, fun hout => ⟨fetch_outOfBounds hout, fun hr =>
    ⟨_, step_of_fetch_none hr (fetch_outOfBounds hout), raiseMemoryFault_faultedBy s .fetch s.pc⟩⟩⟩

end Sys2Proof
end

section
/-! PROOFS. Opcodes of decoded words (spec/30_encoding.md R71, R74), what a register write with a new pc changes, and JAL
(spec/46_jumps.md R170). -/

namespace Sys2Proof

/-! ### The opcode of a decoded word (R71) -/

/-- R74: the mask of the rows without funct3 tests the opcode field alone. -/
theorem and_opcode_eq_iff (w : Word) (op : BitVec 7) : w &&& 0x0000007F#32 = 0#25 ++ op ↔ opcodeOf w = op := by
  rw [Laws.and_opcode, BitVec.append_right_inj]

section
variable {w : Word} {i : Instr}

theorem opcodeOf_row_of_decodeAluReg (h : decodeAluReg w = .ok i) : opcodeOf i.row.pattern = 0x33#7 := by
  simp only [decodeAluReg] at h
  split_ifs at h
  all_goals cases h
  all_goals simp only [Instr.row]; decide

theorem opcodeOf_row_of_decodeAluImm (h : decodeAluImm w = .ok i) : opcodeOf i.row.pattern = 0x13#7 := by
  simp only [decodeAluImm] at h
  split_ifs at h
  all_goals cases h
  all_goals simp only [Instr.row]; decide

theorem opcodeOf_row_of_decodeLoad (h : decodeLoad w = .ok i) : opcodeOf i.row.pattern = 0x03#7 := by
  simp only [decodeLoad] at h
  split_ifs at h
  all_goals cases h
  all_goals simp only [Instr.row]; decide

theorem opcodeOf_row_of_decodeStore (h : decodeStore w = .ok i) : opcodeOf i.row.pattern = 0x23#7 := by
  simp only [decodeStore] at h
  split_ifs at h
  all_goals cases h
  all_goals simp only [Instr.row]; decide

theorem opcodeOf_row_of_decodeBranch (h : decodeBranch w = .ok i) : opcodeOf i.row.pattern = 0x63#7 := by
  simp only [decodeBranch] at h
  split_ifs at h
  all_goals cases h
  all_goals simp only [Instr.row]; decide

theorem opcodeOf_row_of_decodeSystem (h : decodeSystem w = .ok i) : opcodeOf i.row.pattern = 0x73#7 := by
  simp only [decodeSystem] at h
  split_ifs at h
  all_goals cases h
  all_goals simp only [Instr.row]; decide

end

/-- R71: a word that decodes to an instruction has the opcode of that instruction's row. -/
theorem opcodeOf_of_decodeWord {w : Word} {i : Instr} (h : decodeWord w = .ok i) :
    opcodeOf w = opcodeOf i.row.pattern := by
  simp only [decodeWord] at h
  split at h
  · next hop => exact hop.trans (opcodeOf_row_of_decodeAluReg h).symm
  split at h
  · next hop => exact hop.trans (opcodeOf_row_of_decodeAluImm h).symm
  split at h
  · next hop => exact hop.trans (opcodeOf_row_of_decodeLoad h).symm
  split at h
  · next hop => exact hop.trans (opcodeOf_row_of_decodeStore h).symm
  split at h
  · next hop => exact hop.trans (opcodeOf_row_of_decodeBranch h).symm
  split at h
  · next hop => cases h; exact hop
  split at h
  · next hop =>
    split at h
    · cases h; exact hop
    · cases h
  split at h
  · next hop => cases h; exact hop
  split at h
  · next hop => cases h; exact hop
  split at h
  · next hop => exact hop.trans (opcodeOf_row_of_decodeSystem h).symm
  · cases h

/-! ### JAL's encoding (R170) -/

theorem decodeWord_of_opcode_jal {w : Word} (h : opcodeOf w = 0x6F#7) : decodeWord w = .ok (.jal (rdOf w) (immJ w)) := by
  simp [decodeWord, h]

/-- A word decodes to a JAL exactly when its opcode is JAL's; the operands are then its fields. -/
theorem decodeWord_eq_jal_iff {w : Word} {rd : RegIdx} {imm : Word} :
    decodeWord w = .ok (.jal rd imm) ↔ opcodeOf w = 0x6F#7 ∧ rdOf w = rd ∧ immJ w = imm := by
  constructor
  · intro h
    have hop : opcodeOf w = 0x6F#7 := opcodeOf_of_decodeWord h
    rw [decodeWord_of_opcode_jal hop] at h
    cases h
    exact ⟨hop, rfl, rfl⟩
  · rintro ⟨hop, rfl, rfl⟩
    exact decodeWord_of_opcode_jal hop

/-- The signed and the unsigned reading of a word differ by 0 or `2^32`. -/
theorem toNat_even_of_toInt_even {w : Word} (h : w.toInt % 2 = 0) : w.toNat % 2 = 0 := by
  rw [BitVec.toInt_eq_toNat_cond] at h
  split at h <;> omega

/-- R68: a J-type offset is even. -/
theorem immJ_even (w : Word) : (immJ w).toNat % 2 = 0 := by
  have hfits : fitsImmJ (immJ w) = true := fitsImmJ_signExtend _
  obtain ⟨-, -, heven⟩ := of_decide_eq_true hfits
  exact toNat_even_of_toInt_even heven

/-! ### The target's arithmetic (R8) -/

/-- R8, D10: the model's addition of words is `add32`. -/
theorem Spec.add32_eq_add (a b : Word) : Spec.add32 a b = a + b := by
  apply BitVec.eq_of_toNat_eq
  simp [Spec.add32]

/-- `add32` keeps even words even, wrapping or not. -/
theorem Spec.add32_even {a b : Word} (ha : a.toNat % 2 = 0) (hb : b.toNat % 2 = 0) : (Spec.add32 a b).toNat % 2 = 0 := by
  rw [Spec.add32_eq_add, BitVec.toNat_add]
  omega

end Sys2Proof

namespace Sys2Proof.Machine

/-! ### JAL's effect (R170) -/

/-- R12, R22: writing a register and pc changes nothing else. -/
theorem setReg_setPc_onlyRegAndPc (s : State) (rd : RegIdx) (v p : Word) :
    OnlyRegAndPc s ((s.setReg rd v).setPc p) rd v p where
  regs r := by rw [getReg_setPc, getReg_setReg]
  pc := rfl
  mem a := by rw [setPc_mem, setReg_mem]
  control := ⟨by simp, by simp, by simp⟩

/-- R170: the link and the target, both from the state before. -/
theorem exec_jal (s : State) (rd : RegIdx) (imm : Word) :
    exec (.jal rd imm) s = .next ((s.setReg rd (Spec.add32 s.pc 4#32)).setPc (Spec.add32 s.pc imm)) := by
  rw [Spec.add32_eq_add, Spec.add32_eq_add]
  exact jumpResult_eq s rd (s.pc + imm)

/-- R91: the step after a jump beyond the memory raises the fetch fault at the target. -/
theorem OnlyRegAndPc.step_fetchFault {s t : State} {rd : RegIdx} {v target : Word} (h : OnlyRegAndPc s t rd v target)
    (hr : s.runState = .running) (hout : s.cfg.memSize < target.toNat + 4) :
    ∃ u, step t = .next u ∧ FaultedBy t u .fetch target := by
  rw [← h.pc, ← h.control.cfg] at hout
  rw [← h.control.runState] at hr
  rw [← h.pc]
  exact ((fetchReadsTheFourBytesAtPc t).2 hout).2 hr

end Sys2Proof.Machine

namespace Sys2Proof

open Machine

/-- Settles O43: the encoding both ways, then the effect, whose frame also gives the parity of the target and the fetch
fault of the step after. -/
theorem jalLinksAndJumpsRelative : Obligations.JalLinksAndJumpsRelative := by
  refine ⟨fun w hw => ?encoded, fun w rd imm hd => ?decoded, fun s rd imm => ?effect⟩
  case encoded =>
    rw [Spec.sext_eq_signExtend (by decide)]
    exact decodeWord_of_opcode_jal ((and_opcode_eq_iff w 0x6F#7).1 hw)
  case decoded =>
    obtain ⟨hop, -, rfl⟩ := decodeWord_eq_jal_iff.1 hd
    exact ⟨(and_opcode_eq_iff w 0x6F#7).2 hop, immJ_even w⟩
  case effect =>
    have hframe := setReg_setPc_onlyRegAndPc s rd (Spec.add32 s.pc 4#32) (Spec.add32 s.pc imm)
    exact ⟨_, exec_jal s rd imm, hframe, fun himm hpc => Spec.add32_even hpc himm, hframe.step_fetchFault⟩

end Sys2Proof
end

section
/-! PROOFS. LUI (spec/47_upper_immediate.md R180): its encoding and its effect. -/

namespace Sys2Proof.Machine

/-- Completing with a register result changes that register and pc, which moves to the next instruction (R12, R22). -/
theorem writeResult_completes (s : State) (rd : RegIdx) (v : Word) :
    ∃ t, s.writeResult rd v = .next t ∧ OnlyRegAndPc s t rd v (Spec.add32 s.pc 4#32) := by
  rw [Spec.add32_eq_add]
  exact ⟨_, writeResult_eq s rd v, setReg_setPc_onlyRegAndPc s rd v (s.pc + 4#32)⟩

end Sys2Proof.Machine

namespace Sys2Proof

open Machine

/-- R71, R180: the operands of a word with LUI's opcode are its fields. -/
theorem decodeWord_of_opcode_lui {w : Word} (h : opcodeOf w = 0x37#7) : decodeWord w = .ok (.lui (rdOf w) (immU w)) := by
  simp [decodeWord, h]

/-- Settles O45: a word decodes to LUI exactly when its opcode is LUI's, with the masked word as immediate, and the
meaning of LUI is to complete with that immediate. -/
theorem luiWritesTheUpperImmediate : Obligations.LuiWritesTheUpperImmediate := by
  refine ⟨fun w hw => ?encoded, fun w rd imm hd => ?decoded, fun s rd imm => ?effect⟩
  case encoded =>
    rw [← immU_eq_mask]
    exact decodeWord_of_opcode_lui ((and_opcode_eq_iff w 0x37#7).1 hw)
  case decoded =>
    have hop : opcodeOf w = 0x37#7 := opcodeOf_of_decodeWord hd
    exact (and_opcode_eq_iff w 0x37#7).2 hop
  case effect =>
    exact writeResult_completes s rd imm

end Sys2Proof
end

section
/-! PROOFS. The complete list of a step's events (spec/60_exceptions.md R201), over the fact that a word which meets a
row of the opcode table decodes (spec/30_encoding.md R74). -/

namespace Sys2Proof

/-! ### Words that meet a row decode (R74) -/

/-- R74: where a row's mask covers a field, a word that meets the row has the pattern's bits in that field. -/
theorem extractLsb'_eq_of_and_eq {w mask pattern : Word} {k l : Nat} (h : w &&& mask = pattern)
    (hmask : mask.extractLsb' k l = BitVec.allOnes l) : w.extractLsb' k l = pattern.extractLsb' k l := by
  rw [← h, BitVec.extractLsb'_and, hmask, BitVec.and_allOnes]

section
variable {w p : Word}

/-- The field that the mask of the rows without funct3 tests. -/
theorem opcodeOf_eq_of_and (h : w &&& 0x0000007F#32 = p) : opcodeOf w = opcodeOf p :=
  extractLsb'_eq_of_and_eq h (by decide)

/-- The fields that the mask of the rows with funct3 alone tests. -/
theorem fields_eq_of_and_funct3 (h : w &&& 0x0000707F#32 = p) : opcodeOf w = opcodeOf p ∧ funct3Of w = funct3Of p :=
  ⟨extractLsb'_eq_of_and_eq h (by decide), extractLsb'_eq_of_and_eq h (by decide)⟩

/-- The fields that the mask of the rows with funct3 and funct7 tests. -/
theorem fields_eq_of_and_funct7 (h : w &&& 0xFE00707F#32 = p) :
    opcodeOf w = opcodeOf p ∧ funct3Of w = funct3Of p ∧ funct7Of w = funct7Of p :=
  ⟨extractLsb'_eq_of_and_eq h (by decide), extractLsb'_eq_of_and_eq h (by decide),
    extractLsb'_eq_of_and_eq h (by decide)⟩

/-- The fields that the mask of ECALL's and EBREAK's rows tests. -/
theorem fields_eq_of_and_sysField (h : w &&& 0xFFF0707F#32 = p) :
    opcodeOf w = opcodeOf p ∧ funct3Of w = funct3Of p ∧ sysFieldOf w = sysFieldOf p :=
  ⟨extractLsb'_eq_of_and_eq h (by decide), extractLsb'_eq_of_and_eq h (by decide),
    extractLsb'_eq_of_and_eq h (by decide)⟩

end

/-! The fields of a numeral, as every pattern is one. The proofs go by `toNat`, so that `simp` rewrites with an equation
and does not leave the evaluation of a 32-bit numeral to the kernel. -/

section
variable (n : Nat)

@[simp] theorem opcodeOf_ofNat : opcodeOf (BitVec.ofNat 32 n) = BitVec.ofNat 7 (n % 2 ^ 32) :=
  BitVec.eq_of_toNat_eq rfl

@[simp] theorem funct3Of_ofNat : funct3Of (BitVec.ofNat 32 n) = BitVec.ofNat 3 ((n % 2 ^ 32) >>> 12) :=
  BitVec.eq_of_toNat_eq rfl

@[simp] theorem funct7Of_ofNat : funct7Of (BitVec.ofNat 32 n) = BitVec.ofNat 7 ((n % 2 ^ 32) >>> 25) :=
  BitVec.eq_of_toNat_eq rfl

@[simp] theorem sysFieldOf_ofNat : sysFieldOf (BitVec.ofNat 32 n) = BitVec.ofNat 12 ((n % 2 ^ 32) >>> 20) :=
  BitVec.eq_of_toNat_eq rfl

end

/-- R74: a word that meets an instruction's row decodes to an instruction of that row, since the fields the row tests
lead the dispatch there. -/
theorem decodeWord_of_row_holds {i : Instr} {w : Word} (h : i.row.holds w) :
    ∃ j, decodeWord w = .ok j ∧ j.row = i.row := by
  cases i with
  | add | sub | xor | or | and | sll | srl | sra | slt | sltu =>
    obtain ⟨hop, hf3, hf7⟩ := fields_eq_of_and_funct7 h
    simp [decodeWord, decodeAluReg, hop, hf3, hf7, Instr.row]
  | slli | srli | srai =>
    obtain ⟨hop, hf3, hf7⟩ := fields_eq_of_and_funct7 h
    simp [decodeWord, decodeAluImm, hop, hf3, hf7, Instr.row]
  | addi | xori | ori | andi | slti | sltiu =>
    obtain ⟨hop, hf3⟩ := fields_eq_of_and_funct3 h
    simp [decodeWord, decodeAluImm, hop, hf3, Instr.row]
  | lb | lh | lw | lbu | lhu =>
    obtain ⟨hop, hf3⟩ := fields_eq_of_and_funct3 h
    simp [decodeWord, decodeLoad, hop, hf3, Instr.row]
  | sb | sh | sw =>
    obtain ⟨hop, hf3⟩ := fields_eq_of_and_funct3 h
    simp [decodeWord, decodeStore, hop, hf3, Instr.row]
  | beq | bne | blt | bge | bltu | bgeu =>
    obtain ⟨hop, hf3⟩ := fields_eq_of_and_funct3 h
    simp [decodeWord, decodeBranch, hop, hf3, Instr.row]
  | jalr =>
    obtain ⟨hop, hf3⟩ := fields_eq_of_and_funct3 h
    simp [decodeWord, hop, hf3, Instr.row]
  | jal | lui | auipc =>
    have hop := opcodeOf_eq_of_and h
    simp [decodeWord, hop, Instr.row]
  | ecall | ebreak =>
    obtain ⟨hop, hf3, hsys⟩ := fields_eq_of_and_sysField h
    simp [decodeWord, decodeSystem, hop, hf3, hsys, Instr.row]

/-- R74, R75: a word the decoder rejects meets no row. -/
theorem not_row_holds_of_decodeWord_error {w : Word} {r : Reject} (hd : decodeWord w = .error r) :
    ∀ row ∈ opcodeTable, ¬ row.holds w := by
  intro row hrow hholds
  obtain ⟨i, -, rfl⟩ := List.mem_map.1 hrow
  obtain ⟨j, hj, -⟩ := decodeWord_of_row_holds hholds
  cases hj.symm.trans hd

end Sys2Proof

namespace Sys2Proof.Machine

/-! ### When the fetch answers a word (R91) -/

theorem inBounds_of_fetch_some {s : State} {w : Word} (hf : s.fetch = some w) : s.pc.toNat + 4 ≤ s.cfg.memSize :=
  (memRead_eq_some hf).1

theorem outOfBounds_of_fetch_none {s : State} (hf : s.fetch = none) : s.cfg.memSize < s.pc.toNat + 4 := by
  by_contra hin
  cases (fetch_inBounds (Nat.not_lt.1 hin)).symm.trans hf

/-! ### The access of an instruction (R140, R150) -/

section
variable {i : Instr} {s : State}

/-- An access of an instruction that writes a register is its load. -/
theorem loads_of_access {rd : RegIdx} (hd : i.dest = some rd) {x : RegIdx × Word × Nat}
    (h : i.loads = some x ∨ i.stores = some x) : i.loads = some x :=
  h.resolve_right fun hs => by cases hd.symm.trans (dest_of_stores hs)

/-- An access of an instruction that writes no register is its store. -/
theorem stores_of_access (hd : i.dest = none) {x : RegIdx × Word × Nat}
    (h : i.loads = some x ∨ i.stores = some x) : i.stores = some x := by
  refine h.resolve_left fun hl => ?_
  obtain ⟨rd, hrd⟩ := dest_of_loads hl
  cases hd.symm.trans hrd

end

end Sys2Proof.Machine

namespace Sys2Proof

open Machine

/-- Settles O9: the cases of `StepCase`, with those of `Effect` for a word that decodes, are the rows of R201's table
and the step without an event. -/
theorem everyStepEndsInAListedEventOrNone : Obligations.EveryStepEndsInAListedEventOrNone := by
  intro s t h
  obtain ⟨hr, hcase⟩ := step_cases h
  cases hcase with
  | fetchFault hf ht =>
    subst ht
    exact .inl ⟨outOfBounds_of_fetch_none hf, raiseMemoryFault_faultedBy s .fetch s.pc⟩
  | unimplemented w r hf hd ht =>
    subst ht
    refine .inr ⟨inBounds_of_fetch_some hf, w, hf, .inl ⟨not_row_holds_of_decodeWord_error hd,
      fun r => getReg_unimplemented s r w, fun _ => by rw [unimplemented_mem], unimplemented_cfg s w,
      unimplemented_log s w, fun hc => ?_, fun ha => ?_⟩⟩
    · rw [unimplemented_continue s w hc]
      exact ⟨hr, rfl⟩
    · rw [unimplemented_abort s w ha]
      exact ⟨rfl, rfl⟩
  | runs w i hf hd ht =>
    refine .inr ⟨inBounds_of_fetch_some hf, w, hf, .inr ⟨i, hd, ?_⟩⟩
    cases effect_of_exec ht with
    | writes rd v p hdest hb =>
      refine .inr (.inr (.inr ⟨?_, fun rs1 imm n hacc => ?_, (setReg_setPc_onlyRegAndPc s rd v p).control⟩))
      · rintro rfl
        cases hdest
      · exact hb rs1 imm n (loads_of_access hdest hacc)
    | moves p hdest hs he =>
      refine .inr (.inr (.inr ⟨he, fun rs1 imm n hacc => ?_, rfl, rfl, rfl⟩))
      cases hs.symm.trans (stores_of_access hdest hacc)
    | stores rs1 imm n v hs hb =>
      refine .inr (.inr (.inr ⟨?_, fun rs1' imm' n' hacc => ?_, rfl, rfl, rfl⟩))
      · rintro rfl
        cases hs
      · cases hs.symm.trans (stores_of_access (dest_of_stores hs) hacc)
        exact hb
    | loadFault rs1 imm n hl hb =>
      exact .inl ⟨rs1, imm, n, hl, Nat.not_le.1 hb, raiseMemoryFault_faultedBy s .load _⟩
    | storeFault rs1 imm n hs hb =>
      exact .inr (.inl ⟨rs1, imm, n, hs, Nat.not_le.1 hb, raiseMemoryFault_faultedBy s .store _⟩)
    | halts he => exact .inr (.inr (.inl ⟨he, getReg_halt s, fun _ => rfl, rfl, rfl, rfl, rfl⟩))

end Sys2Proof
end

section
/-! PROOFS. The machine's invariant is kept by every step (spec/10_state.md R33, spec/20_memory.md R40, R48). -/

namespace Sys2Proof.Machine

variable {s t : State}

/-- Outside FAULTED the log fits run_state by a condition on log and policy alone. -/
theorem logFits_iff_of_ne_faulted (h : s.runState ≠ .faulted) :
    s.logFits ↔ (∀ r ∈ s.log, r.isUnimplemented = true) ∧ (s.cfg.unimpPolicy = .logAndAbort → s.log = []) := by
  unfold State.logFits
  cases hr : s.runState with
  | running | halted => rfl
  | faulted => exact absurd hr h

/-- R203: the record of a MemoryFault ends a log that held none. -/
theorem logFits_raiseMemoryFault (hr : s.runState = .running) (h : s.logFits) (k : AccessKind) (a : Word) :
    (s.raiseMemoryFault k a).logFits := by
  obtain ⟨hlog, habort⟩ := (logFits_iff_of_ne_faulted (by simp [hr])).1 h
  exact ⟨s.log, _, rfl, hlog, habort, rfl⟩

/-- R202: an `Unimplemented` record leaves the run going under `continue`, and ends it, as the only record, under
`abort`. -/
theorem logFits_unimplemented (hr : s.runState = .running) (h : s.logFits) (w : Word) :
    (s.unimplemented w).logFits := by
  obtain ⟨hlog, habort⟩ := (logFits_iff_of_ne_faulted (by simp [hr])).1 h
  cases hp : s.cfg.unimpPolicy with
  | logAndContinue =>
    rw [unimplemented_continue s w hp, logFits_iff_of_ne_faulted (by simp [hr])]
    refine ⟨fun r hmem => ?_, fun ha => by cases hp.symm.trans ha⟩
    rcases List.mem_append.1 hmem with hmem | hmem
    · exact hlog r hmem
    · rw [List.mem_singleton.1 hmem]
      rfl
  | logAndAbort =>
    rw [unimplemented_abort s w hp]
    exact ⟨s.log, _, rfl, hlog, habort, rfl, hp⟩

/-- The invariant says nothing of registers and pc outside FAULTED, so it follows a state whose memory meets it and
whose log and parameters stay. -/
theorem State.Inv.of_log_eq (h : s.Inv) (hs : s.runState ≠ .faulted) (ht : t.runState ≠ .faulted) (hwf : t.mem.wf)
    (hin : t.mem.within s.cfg.memSize) (hlog : t.log = s.log) (hcfg : t.cfg = s.cfg) : t.Inv where
  memCanonical := hwf
  memWithin := hcfg ▸ hin
  configInRange := hcfg ▸ h.configInRange
  logFits := by
    rw [logFits_iff_of_ne_faulted ht, hlog, hcfg]
    exact (logFits_iff_of_ne_faulted hs).1 h.logFits

theorem State.Inv.raiseMemoryFault (h : s.Inv) (hr : s.runState = .running) (k : AccessKind) (a : Word) :
    (s.raiseMemoryFault k a).Inv :=
  ⟨h.memCanonical, h.memWithin, h.configInRange, logFits_raiseMemoryFault hr h.logFits k a⟩

theorem State.Inv.unimplemented (h : s.Inv) (hr : s.runState = .running) (w : Word) : (s.unimplemented w).Inv where
  memCanonical := by simpa using h.memCanonical
  memWithin := by simpa using h.memWithin
  configInRange := by simpa using h.configInRange
  logFits := logFits_unimplemented hr h.logFits w

/-- An instruction run in RUNNING keeps the invariant: only a store changes the memory, and within its bounds. -/
theorem Effect.inv {i : Instr} (he : Effect i s t) (h : s.Inv) (hr : s.runState = .running) : t.Inv := by
  have hs : s.runState ≠ .faulted := by simp [hr]
  cases he with
  | writes rd v p =>
    have hmem : ((s.setReg rd v).setPc p).mem = s.mem := by rw [setPc_mem, setReg_mem]
    exact h.of_log_eq hs (by simpa) (hmem ▸ h.memCanonical) (hmem ▸ h.memWithin) (by simp) (by simp)
  | moves => exact h.of_log_eq hs (by simpa) h.memCanonical h.memWithin rfl rfl
  | stores rs1 imm n v _ hb =>
    exact h.of_log_eq hs (by simpa) (wf_writeLE h.memCanonical _ _ _) (within_writeLE h.memWithin hb v) rfl rfl
  | loadFault | storeFault => exact h.raiseMemoryFault hr _ _
  | halts => exact h.of_log_eq hs (by simp) h.memCanonical h.memWithin rfl rfl

end Sys2Proof.Machine

namespace Sys2Proof

open Machine

/-- Settles O3: each case of `StepCase` keeps the invariant of the RUNNING state it starts from. -/
theorem stepKeepsTheInvariant : Obligations.StepKeepsTheInvariant := by
  intro s t h hstep
  obtain ⟨hr, hcase⟩ := step_cases hstep
  cases hcase with
  | fetchFault _ ht => exact ht ▸ h.raiseMemoryFault hr .fetch s.pc
  | unimplemented w _ _ _ ht => exact ht ▸ h.unimplemented hr w
  | runs w i _ _ ht => exact (effect_of_exec ht).inv h hr

end Sys2Proof
end

section
/-! PROOFS. The decoder against the encoder and the opcode table (spec/30_encoding.md sections 4, 5 and 7). -/

namespace Sys2Proof

/-! ### Decoding an encoded instruction -/

/-- R81: the decoder finds the operands of a well-formed instruction in its word. -/
theorem decodeWord_encode {i : Instr} (h : i.wf = true) : decodeWord (encode i) = .ok i := by
  cases i with
  | add | sub | xor | or | and | sll | srl | sra | slt | sltu => simp [encode, decodeWord, decodeAluReg]
  | slli | srli | srai => simp [encode, decodeWord, decodeAluImm]
  | addi | xori | ori | andi | slti | sltiu => simp [encode, decodeWord, decodeAluImm, fitsImm12_spec h]
  | lb | lh | lw | lbu | lhu => simp [encode, decodeWord, decodeLoad, fitsImm12_spec h]
  | sb | sh | sw => simp [encode, decodeWord, decodeStore, fitsImm12_spec h]
  | beq | bne | blt | bge | bltu | bgeu => simp [encode, decodeWord, decodeBranch, fitsImmB_spec h]
  | jal => simp [encode, decodeWord, fitsImmJ_spec h]
  | jalr => simp [encode, decodeWord, fitsImm12_spec h]
  | lui | auipc => simp [encode, decodeWord, fitsImmU_spec h]
  | ecall | ebreak => rfl

/-- R41: a word's four bytes, little-endian, are the word. -/
theorem wordOfBytes_extract (w : Word) :
    wordOfBytes (w.extractLsb' 0 8) (w.extractLsb' 8 8) (w.extractLsb' 16 8) (w.extractLsb' 24 8) = w := by
  apply BitVec.eq_of_getLsbD_eq
  intro i hi
  simp only [wordOfBytes, BitVec.getLsbD_append, BitVec.getLsbD_extractLsb']
  interval_cases i <;> simp

/-- Decoding the bytes of a word that decodes leaves the bytes after them. -/
theorem decode_bytesOfWord_append {w : Word} {i : Instr} (h : decodeWord w = .ok i) (rest : List Byte) :
    decode (bytesOfWord w ++ rest) = .ok (i, rest) := by
  simp only [bytesOfWord, List.cons_append, List.nil_append, decode, wordOfBytes_extract, h]

/-- Settles O10: the word first, then its bytes. -/
theorem decodingAnEncodedInstructionGivesItBack : Obligations.DecodingAnEncodedInstructionGivesItBack :=
  fun _ hwf => ⟨decodeWord_encode hwf, decode_bytesOfWord_append (decodeWord_encode hwf)⟩

/-! ### Encoding a decoded word

The fields of a word, with the function codes under their values, put the word together again. -/

section
variable {w : Word} {op f7 : BitVec 7} {f3 : BitVec 3}

theorem encodeR_eq (hop : opcodeOf w = op) (hf3 : funct3Of w = f3) (hf7 : funct7Of w = f7) :
    encodeR f7 (rs2Of w) (rs1Of w) f3 (rdOf w) op = w := by
  subst hop hf3 hf7
  exact encodeR_fields w

theorem encodeShift_eq (hop : opcodeOf w = op) (hf3 : funct3Of w = f3) (hf7 : funct7Of w = f7) :
    encodeR f7 (shamtOf w) (rs1Of w) f3 (rdOf w) op = w := by
  subst hop hf3 hf7
  exact encodeShift_fields w

theorem encodeI_eq (hop : opcodeOf w = op) (hf3 : funct3Of w = f3) :
    encodeI (immI w) (rs1Of w) f3 (rdOf w) op = w := by
  subst hop hf3
  exact encodeI_fields w

theorem encodeS_eq (hop : opcodeOf w = op) (hf3 : funct3Of w = f3) :
    encodeS (immS w) (rs2Of w) (rs1Of w) f3 op = w := by
  subst hop hf3
  exact encodeS_fields w

theorem encodeB_eq (hop : opcodeOf w = op) (hf3 : funct3Of w = f3) :
    encodeB (immB w) (rs2Of w) (rs1Of w) f3 op = w := by
  subst hop hf3
  exact encodeB_fields w

theorem encodeU_eq (hop : opcodeOf w = op) : encodeU (immU w) (rdOf w) op = w := by
  subst hop
  exact encodeU_fields w

theorem encodeJ_eq (hop : opcodeOf w = op) : encodeJ (immJ w) (rdOf w) op = w := by
  subst hop
  exact encodeJ_fields w

end

/-- R67: the upper immediate of any word is a multiple of 4096. -/
theorem fitsImmU_immU (w : Word) : fitsImmU (immU w) = true := by
  rw [fitsImmU, toNat_immU, Nat.mul_mod_left]
  rfl

/-- What a word decodes to: an instruction that its fields encode whole, or ECALL or EBREAK, of which `rd` and `rs1` are
not examined (D9). -/
inductive Decoded (w : Word) (i : Instr) : Prop where
  | whole (hwf : i.wf = true) (hcall : i ≠ .ecall) (hbreak : i ≠ .ebreak) (hw : encode i = w)
  | system (hi : i = .ecall ∨ i = .ebreak) (hw : encode i = w &&& 0xFFF0707F#32)

section
variable {w : Word} {i : Instr}

theorem decoded_of_decodeAluReg (hop : opcodeOf w = 0x33#7) (h : decodeAluReg w = .ok i) : Decoded w i := by
  simp only [decodeAluReg, ne_eq, ite_not] at h
  split_ifs at h
  all_goals cases h
  case neg =>
    have hf3 : funct3Of w = 3#3 := by bv_omega
    exact .whole rfl nofun nofun (encodeR_eq hop hf3 ‹_›)
  all_goals exact .whole rfl nofun nofun (encodeR_eq hop ‹_› ‹_›)

theorem decoded_of_decodeAluImm (hop : opcodeOf w = 0x13#7) (h : decodeAluImm w = .ok i) : Decoded w i := by
  simp only [decodeAluImm] at h
  split_ifs at h with _ _ _ _ _ _ h1 _ hl hr
  all_goals cases h
  iterate 6 exact .whole (fitsImm12_signExtend _) nofun nofun (encodeI_eq hop ‹_›)
  · exact .whole rfl nofun nofun (encodeShift_eq hop h1 ‹_›)
  all_goals
    have hf3 : funct3Of w = 5#3 := by bv_omega
    exact .whole rfl nofun nofun (encodeShift_eq hop hf3 ‹_›)

theorem decoded_of_decodeLoad (hop : opcodeOf w = 0x03#7) (h : decodeLoad w = .ok i) : Decoded w i := by
  simp only [decodeLoad] at h
  split_ifs at h
  all_goals cases h
  all_goals exact .whole (fitsImm12_signExtend _) nofun nofun (encodeI_eq hop ‹_›)

theorem decoded_of_decodeStore (hop : opcodeOf w = 0x23#7) (h : decodeStore w = .ok i) : Decoded w i := by
  simp only [decodeStore] at h
  split_ifs at h
  all_goals cases h
  all_goals exact .whole (fitsImm12_signExtend _) nofun nofun (encodeS_eq hop ‹_›)

theorem decoded_of_decodeBranch (hop : opcodeOf w = 0x63#7) (h : decodeBranch w = .ok i) : Decoded w i := by
  simp only [decodeBranch] at h
  split_ifs at h
  all_goals cases h
  all_goals exact .whole (fitsImmB_signExtend _) nofun nofun (encodeB_eq hop ‹_›)

theorem decoded_of_decodeSystem (hop : opcodeOf w = 0x73#7) (h : decodeSystem w = .ok i) : Decoded w i := by
  simp only [decodeSystem] at h
  split_ifs at h with hf3 hcall hbreak
  all_goals cases h
  · exact .system (.inl rfl) (by rw [Laws.and_opcode_funct3_sysField, hcall, hf3, hop]; rfl)
  · exact .system (.inr rfl) (by rw [Laws.and_opcode_funct3_sysField, hbreak, hf3, hop]; rfl)

/-- What the decoder answers, opcode by opcode (R71). -/
theorem decoded_of_decodeWord (h : decodeWord w = .ok i) : Decoded w i := by
  simp only [decodeWord] at h
  split_ifs at h with h33 h13 h03 h23 h63 h6F h67 hf3 h37 h17 h73
  · exact decoded_of_decodeAluReg h33 h
  · exact decoded_of_decodeAluImm h13 h
  · exact decoded_of_decodeLoad h03 h
  · exact decoded_of_decodeStore h23 h
  · exact decoded_of_decodeBranch h63 h
  · cases h
    exact .whole (fitsImmJ_signExtend _) nofun nofun (encodeJ_eq h6F)
  · cases h
    exact .whole (fitsImm12_signExtend _) nofun nofun (encodeI_eq h67 hf3)
  · cases h
    exact .whole (fitsImmU_immU w) nofun nofun (encodeU_eq h37)
  · cases h
    exact .whole (fitsImmU_immU w) nofun nofun (encodeU_eq h17)
  · exact decoded_of_decodeSystem h73 h

end

/-- Settles O11: ECALL and EBREAK are the two the first clause leaves out. -/
theorem encodingADecodedWordGivesItBack : Obligations.EncodingADecodedWordGivesItBack := by
  intro w i h
  cases decoded_of_decodeWord h with
  | whole _ hcall hbreak hw => exact ⟨fun _ _ => hw, fun hi => (hi.elim hcall hbreak).elim⟩
  | system hi hw => exact ⟨fun hcall hbreak => (hi.elim hcall hbreak).elim, fun _ => hw⟩

/-- Settles O12: ECALL and EBREAK have no immediate. -/
theorem decodedInstructionsAreWellFormed : Obligations.DecodedInstructionsAreWellFormed := by
  intro w i h
  cases decoded_of_decodeWord h with
  | whole hwf => exact hwf
  | system hi => rcases hi with rfl | rfl <;> rfl

/-! ### The opcode table (R74) -/

/-- The word of every instruction meets the instruction's own row. -/
theorem row_holds_encode : ∀ i : Instr, i.row.holds (encode i)
  | .add .. => Laws.EncodeFitsRow.add ..
  | .sub .. => Laws.EncodeFitsRow.sub ..
  | .xor .. => Laws.EncodeFitsRow.xor ..
  | .or .. => Laws.EncodeFitsRow.or ..
  | .and .. => Laws.EncodeFitsRow.and ..
  | .sll .. => Laws.EncodeFitsRow.sll ..
  | .srl .. => Laws.EncodeFitsRow.srl ..
  | .sra .. => Laws.EncodeFitsRow.sra ..
  | .slt .. => Laws.EncodeFitsRow.slt ..
  | .sltu .. => Laws.EncodeFitsRow.sltu ..
  | .addi .. => Laws.EncodeFitsRow.addi ..
  | .xori .. => Laws.EncodeFitsRow.xori ..
  | .ori .. => Laws.EncodeFitsRow.ori ..
  | .andi .. => Laws.EncodeFitsRow.andi ..
  | .slti .. => Laws.EncodeFitsRow.slti ..
  | .sltiu .. => Laws.EncodeFitsRow.sltiu ..
  | .slli .. => Laws.EncodeFitsRow.slli ..
  | .srli .. => Laws.EncodeFitsRow.srli ..
  | .srai .. => Laws.EncodeFitsRow.srai ..
  | .lb .. => Laws.EncodeFitsRow.lb ..
  | .lh .. => Laws.EncodeFitsRow.lh ..
  | .lw .. => Laws.EncodeFitsRow.lw ..
  | .lbu .. => Laws.EncodeFitsRow.lbu ..
  | .lhu .. => Laws.EncodeFitsRow.lhu ..
  | .sb .. => Laws.EncodeFitsRow.sb ..
  | .sh .. => Laws.EncodeFitsRow.sh ..
  | .sw .. => Laws.EncodeFitsRow.sw ..
  | .beq .. => Laws.EncodeFitsRow.beq ..
  | .bne .. => Laws.EncodeFitsRow.bne ..
  | .blt .. => Laws.EncodeFitsRow.blt ..
  | .bge .. => Laws.EncodeFitsRow.bge ..
  | .bltu .. => Laws.EncodeFitsRow.bltu ..
  | .bgeu .. => Laws.EncodeFitsRow.bgeu ..
  | .jal .. => Laws.EncodeFitsRow.jal ..
  | .jalr .. => Laws.EncodeFitsRow.jalr ..
  | .lui .. => Laws.EncodeFitsRow.lui ..
  | .auipc .. => Laws.EncodeFitsRow.auipc ..
  | .ecall => Laws.EncodeFitsRow.ecall
  | .ebreak => Laws.EncodeFitsRow.ebreak

/-- A word meets the row of the instruction it decodes to. -/
theorem row_holds_of_decodeWord {w : Word} {i : Instr} (h : decodeWord w = .ok i) : i.row.holds w := by
  cases decoded_of_decodeWord h with
  | whole _ _ _ hw => exact hw ▸ row_holds_encode i
  | system hi hw => rcases hi with rfl | rfl <;> exact hw.symm

/-- The table holds the row of every instruction, whatever its operands. -/
theorem row_mem_opcodeTable (i : Instr) : i.row ∈ opcodeTable := by
  cases i <;> simp [opcodeTable, sampleAlu, sampleOther, Instr.row]

/-- Every row of the table is an instruction's. -/
theorem exists_row_of_mem_opcodeTable {row : Row} (h : row ∈ opcodeTable) : ∃ i : Instr, i.row = row := by
  obtain ⟨i, -, hi⟩ := List.mem_map.1 h
  exact ⟨i, hi⟩

/-- A word that meets a row of the table decodes to an instruction of that row. -/
theorem decodeWord_of_holds {w : Word} {row : Row} (hrow : row ∈ opcodeTable) (h : row.holds w) :
    ∃ i, decodeWord w = .ok i ∧ i.row = row := by
  obtain ⟨i, rfl⟩ := exists_row_of_mem_opcodeTable hrow
  exact decodeWord_of_row_holds h

/-- Settles O13: a word that meets no row is rejected, since what it would decode to has a row it meets. -/
theorem dispatchAgreesWithTheOpcodeTable : Obligations.DispatchAgreesWithTheOpcodeTable := by
  refine ⟨fun w i h => ⟨row_mem_opcodeTable i, row_holds_of_decodeWord h⟩, fun w row => decodeWord_of_holds,
    fun w => ⟨fun ⟨_, h⟩ => not_row_holds_of_decodeWord_error h, fun hnone => ?_⟩⟩
  cases hd : decodeWord w with
  | error reason => exact ⟨reason, rfl⟩
  | ok i => exact absurd (row_holds_of_decodeWord hd) (hnone i.row (row_mem_opcodeTable i))

/-- No row stands in the table twice, as the patterns differ. -/
theorem nodup_opcodeTable : opcodeTable.Nodup := by
  have h : (opcodeTable.map Row.pattern).Nodup := by decide
  exact h.of_map

/-- Settles O14: a word that met two rows would decode to an instruction of both. -/
theorem noWordMeetsTwoRows : Obligations.NoWordMeetsTwoRows := by
  refine ⟨rfl, nodup_opcodeTable.imp_of_mem ?_⟩
  rintro p q hp hq hne w ⟨hwp, hwq⟩
  obtain ⟨i, hi, rfl⟩ := decodeWord_of_holds hp hwp
  obtain ⟨j, hj, rfl⟩ := decodeWord_of_holds hq hwq
  cases hi.symm.trans hj
  exact hne rfl

end Sys2Proof
end

section
/-! PROOFS. The B- and J-type immediates, sign extension of every width, and the placement of offsets
(spec/30_encoding.md R66, R68, R69, R81). -/

namespace Sys2Proof

/-! ### The B- and J-type immediates (R66, R68) -/

section
variable (w : Word)

/-- R66: the sub-fields of a B-type word shifted to their places are the 13-bit offset. -/
theorem setWidth_fieldsB :
    (w.extractLsb' 31 1 ++ w.extractLsb' 7 1 ++ w.extractLsb' 25 6 ++ w.extractLsb' 8 4 ++ 0#1
      : BitVec 13).setWidth 32 =
      ((w.extractLsb' 31 1).setWidth 32 <<< 12) ||| ((w.extractLsb' 7 1).setWidth 32 <<< 11) |||
        ((w.extractLsb' 25 6).setWidth 32 <<< 5) ||| ((w.extractLsb' 8 4).setWidth 32 <<< 1) := by
  apply BitVec.eq_of_getLsbD_eq
  intro i hi
  simp only [BitVec.getLsbD_setWidth, BitVec.getLsbD_append, BitVec.getLsbD_or, BitVec.getLsbD_shiftLeft,
    BitVec.getLsbD_extractLsb']
  interval_cases i <;> simp

/-- R68: the sub-fields of a J-type word shifted to their places are the 21-bit offset. -/
theorem setWidth_fieldsJ :
    (w.extractLsb' 31 1 ++ w.extractLsb' 12 8 ++ w.extractLsb' 20 1 ++ w.extractLsb' 21 10 ++ 0#1
      : BitVec 21).setWidth 32 =
      ((w.extractLsb' 31 1).setWidth 32 <<< 20) ||| ((w.extractLsb' 12 8).setWidth 32 <<< 12) |||
        ((w.extractLsb' 20 1).setWidth 32 <<< 11) ||| ((w.extractLsb' 21 10).setWidth 32 <<< 1) := by
  apply BitVec.eq_of_getLsbD_eq
  intro i hi
  simp only [BitVec.getLsbD_setWidth, BitVec.getLsbD_append, BitVec.getLsbD_or, BitVec.getLsbD_shiftLeft,
    BitVec.getLsbD_extractLsb']
  interval_cases i <;> simp

theorem getLsbD_immB_zero : (immB w).getLsbD 0 = false := by
  simp only [immB, BitVec.getLsbD_signExtend, BitVec.getLsbD_append]
  rfl

theorem getLsbD_immJ_zero : (immJ w).getLsbD 0 = false := by
  simp only [immJ, BitVec.getLsbD_signExtend, BitVec.getLsbD_append]
  rfl

theorem fitsImmB_immB : fitsImmB (immB w) = true := fitsImmB_signExtend _

theorem fitsImmJ_immJ : fitsImmJ (immJ w) = true := fitsImmJ_signExtend _

end

/-- Settles O18: both immediates are sign extensions of one field joined from four, with a zero bit below. -/
theorem immediatesOfBAndJFormat : Obligations.ImmediatesOfBAndJFormat := by
  intro w
  obtain ⟨hBmin, hBmax, -⟩ := of_decide_eq_true (fitsImmB_immB w)
  obtain ⟨hJmin, hJmax, -⟩ := of_decide_eq_true (fitsImmJ_immJ w)
  refine ⟨(Spec.sext_eq_signExtend (by decide) _).symm, ?_, getLsbD_immB_zero w, hBmin, hBmax,
    (Spec.sext_eq_signExtend (by decide) _).symm, ?_, getLsbD_immJ_zero w, hJmin, hJmax⟩
  · rw [← setWidth_fieldsB]
    exact (signextShifts_setWidth (N := 13) (by decide) (by decide) _).symm
  · rw [← setWidth_fieldsJ]
    exact (signextShifts_setWidth (N := 21) (by decide) (by decide) _).symm

/-! ### Sign extension of every width (R69) -/

/-- P1: the signed reading of a sign-extended 12-bit value. -/
theorem toInt_sext_ofNat {v : Nat} (hv : v < 4096) :
    (Spec.sext (BitVec.ofNat 12 v)).toInt = if 2048 ≤ v then (v : Int) - 4096 else (v : Int) := by
  rw [Spec.sext_eq_signExtend (by decide), BitVec.toInt_signExtend_of_le (by decide), BitVec.toInt_eq_toNat_cond,
    BitVec.toNat_ofNat, Nat.mod_eq_of_lt hv]
  split <;> split <;> omega

/-- Settles O20: both extensions are `BitVec.signExtend`. -/
theorem twoShiftsSignExtendEveryWidth : Obligations.TwoShiftsSignExtendEveryWidth :=
  ⟨fun _ v h1 hN => ⟨(signextShifts_setWidth h1 hN v).trans (Spec.sext_eq_signExtend hN v).symm,
    Spec.sext_eq_signExtend hN v⟩, fun _ => toInt_sext_ofNat⟩

/-! ### Placing an offset (R81) -/

section
variable {o : Int}

theorem fitsImm12_ofInt (h1 : -2048 ≤ o) (h2 : o ≤ 2047) : fitsImm12 (BitVec.ofInt 32 o) = true := by
  rw [fitsImm12, BitVec.toInt_ofInt_eq_self (by decide) (by omega) (by omega)]
  exact decide_eq_true ⟨h1, h2⟩

theorem fitsImmB_ofInt (h1 : -4096 ≤ o) (h2 : o ≤ 4094) (he : o % 2 = 0) : fitsImmB (BitVec.ofInt 32 o) = true := by
  rw [fitsImmB, BitVec.toInt_ofInt_eq_self (by decide) (by omega) (by omega)]
  exact decide_eq_true ⟨h1, h2, he⟩

theorem fitsImmJ_ofInt (h1 : -1048576 ≤ o) (h2 : o ≤ 1048574) (he : o % 2 = 0) :
    fitsImmJ (BitVec.ofInt 32 o) = true := by
  rw [fitsImmJ, BitVec.toInt_ofInt_eq_self (by decide) (by omega) (by omega)]
  exact decide_eq_true ⟨h1, h2, he⟩

end

/-- Settles O21: an offset in range is a well-formed immediate, which its placed bits extend to. -/
theorem placedOffsetsAreReconstructedExactly : Obligations.PlacedOffsetsAreReconstructedExactly := by
  refine ⟨fun o h1 h2 rs1 f3 rd op rs2 op' => ?_, fun o h1 h2 he rs2 rs1 f3 op => ?_, fun o h1 h2 he rd op => ?_⟩
  · rw [immI_encodeI, immS_encodeS, fitsImm12_spec (fitsImm12_ofInt h1 h2),
      BitVec.toInt_ofInt_eq_self (by decide) (by omega) (by omega)]
    exact ⟨rfl, rfl⟩
  · rw [immB_encodeB, fitsImmB_spec (fitsImmB_ofInt h1 h2 he),
      BitVec.toInt_ofInt_eq_self (by decide) (by omega) (by omega)]
  · rw [immJ_encodeJ, fitsImmJ_spec (fitsImmJ_ofInt h1 h2 he),
      BitVec.toInt_ofInt_eq_self (by decide) (by omega) (by omega)]

end Sys2Proof
end

section
/-! PROOFS. Reads inside a written word, loads and stores (spec/20_memory.md sections 2 and 7, spec/43_loads.md,
spec/44_stores.md). -/

namespace Sys2Proof.Machine

/-! ### Reading inside what was written -/

/-- R41: `k + j` bytes are `j` bytes above `k` bytes; here with one byte below. -/
theorem extractLsb'_succ_byte (v : Word) (k j : Nat) :
    (v.extractLsb' (8 * (k + 1)) (8 * j) ++ v.extractLsb' (8 * k) 8 : BitVec (8 * j + 8)) =
      v.extractLsb' (8 * k) (8 * j + 8) :=
  BitVec.extractLsb'_append_extractLsb'_eq_extractLsb' (Nat.mul_succ 8 k)

/-- R42, R43: `MemRead` of `j` of the `n` written bytes, from byte `k` on, gives those bytes of the word. -/
theorem readLE_writeLE {m : Memory} (h : m.wf) (a n : Nat) (v : Word) {k j : Nat} (hkj : k + j ≤ n) :
    (m.writeLE a n v).readLE (a + k) j = v.extractLsb' (8 * k) (8 * j) := by
  induction j generalizing k with
  | zero => exact BitVec.eq_of_zero_length rfl
  | succ j ih =>
    have hbyte : (m.writeLE a n v).readByte (a + k) = v.extractLsb' (8 * k) 8 := by
      rw [readByte_writeLE h, if_pos (by omega), Nat.add_sub_cancel_left]
    have hrest : (m.writeLE a n v).readLE (a + k + 1) j = v.extractLsb' (8 * (k + 1)) (8 * j) :=
      ih (k := k + 1) (by omega)
    rw [Memory.readLE, hbyte, hrest]
    exact extractLsb'_succ_byte v k j

/-- The whole word reads back. -/
theorem readLE_writeLE_word {m : Memory} (h : m.wf) (a : Nat) (v : Word) : (m.writeLE a 4 v).readLE a 4 = v :=
  (readLE_writeLE h a 4 v (k := 0) (j := 4) (by decide)).trans BitVec.extractLsb'_eq_self

/-- A read inside a written word: the address does not wrap, since the word's bytes lie in the memory. -/
theorem memRead_memWrite {s t : State} {addr v : Word} (hwf : s.mem.wf) (hcfg : s.cfg.wf)
    (h : s.memWrite addr 4 v = some t) {k j : Nat} (hk : k < 4) (hkj : k + j ≤ 4) :
    t.memRead (addr + BitVec.ofNat 32 k) j = some (v.extractLsb' (8 * k) (8 * j)) := by
  obtain ⟨hin, rfl⟩ := memWrite_eq_some h
  obtain ⟨-, hmax⟩ := hcfg
  have haddr : (addr + BitVec.ofNat 32 k).toNat = addr.toNat + k := by
    rw [BitVec.toNat_add, BitVec.toNat_ofNat]
    omega
  have hbound : (addr + BitVec.ofNat 32 k).toNat + j ≤ s.cfg.memSize := by omega
  rw [← readLE_writeLE hwf addr.toNat 4 v hkj, ← haddr]
  exact memRead_inBounds hbound

end Sys2Proof.Machine

namespace Sys2Proof

open Machine

/-- Settles O32: one byte and two bytes inside the four written. -/
theorem narrowReadsSeeTheBytesOfAWrittenWord : Obligations.NarrowReadsSeeTheBytesOfAWrittenWord :=
  fun _ _ _ _ hwf hcfg h => ⟨fun _ hk => memRead_memWrite hwf hcfg h (j := 1) (by omega) (by omega),
    fun _ hk => memRead_memWrite hwf hcfg h (j := 2) (by omega) (by omega)⟩

end Sys2Proof

namespace Sys2Proof.Machine

/-! ### Stores (R150) -/

/-- R140, R150: the address is `add32`. -/
theorem effAddr_eq_add32 (s : State) (rs1 : RegIdx) (imm : Word) :
    s.effAddr rs1 imm = Spec.add32 (s.getReg rs1) imm :=
  (Spec.add32_eq_add _ _).symm

section
variable {s : State} {ea : Word} {n : Nat}

/-- R43: the state after a store within the memory. -/
theorem setMem_setPc_onlyBytesAndPc (hwf : s.mem.wf) (ea : Word) (n : Nat) (v p : Word) :
    OnlyBytesAndPc s ((s.setMem (s.mem.writeLE ea.toNat n v)).setPc p) ea.toNat n v p where
  regs r := by rw [getReg_setPc, getReg_setMem]
  pc := rfl
  mem a := by
    rw [setPc_mem, setMem_mem, readByte_writeLE hwf, ← Nat.shiftRight_eq_div_pow]
    rfl
  control := ⟨rfl, rfl, rfl⟩

/-- An address is the same after a store, which changes no register. -/
theorem effAddr_setMem_setPc (m : Memory) (p : Word) (rs1 : RegIdx) (imm : Word) :
    ((s.setMem m).setPc p).effAddr rs1 imm = s.effAddr rs1 imm := by
  rw [State.effAddr, getReg_setPc, getReg_setMem, State.effAddr]

/-- R55: the fetch after a change of memory and pc reads the new memory at the new pc. -/
theorem fetch_setMem_setPc {m : Memory} {p : Word} (h : p.toNat + 4 ≤ s.cfg.memSize) :
    ((s.setMem m).setPc p).fetch = some (m.readLE p.toNat 4) :=
  memRead_inBounds (s := (s.setMem m).setPc p) h

/-- A store whose bytes lie in the memory completes. -/
theorem storeResult_completes (hwf : s.mem.wf) (hin : ea.toNat + n ≤ s.cfg.memSize) (v : Word) :
    ∃ t, s.storeResult ea n v = .next t ∧ OnlyBytesAndPc s t ea.toNat n v (Spec.add32 s.pc 4#32) := by
  rw [Spec.add32_eq_add]
  exact ⟨_, storeResult_inBounds hin v, setMem_setPc_onlyBytesAndPc hwf ea n v (s.pc + 4#32)⟩

/-- A store with a byte beyond the memory faults (R44, R150). -/
theorem storeResult_faults (hout : s.cfg.memSize < ea.toNat + n) (v : Word) :
    ∃ t, s.storeResult ea n v = .next t ∧ FaultedBy s t .store ea :=
  ⟨_, storeResult_outOfBounds (Nat.not_le.2 hout) v, raiseMemoryFault_faultedBy s .store ea⟩

/-! ### Loads (R140) -/

/-- A load whose bytes lie in the memory completes with their extension. -/
theorem loadResult_completes (hin : ea.toNat + n ≤ s.cfg.memSize) (rd : RegIdx) (extend : BitVec (8 * n) → Word) :
    ∃ t, s.loadResult rd ea n extend = .next t ∧
      OnlyRegAndPc s t rd (extend (s.mem.readLE ea.toNat n)) (Spec.add32 s.pc 4#32) := by
  rw [Spec.add32_eq_add]
  exact ⟨_, loadResult_inBounds hin rd extend, setReg_setPc_onlyRegAndPc s rd _ (s.pc + 4#32)⟩

/-- A load with a byte beyond the memory faults, into `x0` too (R44, R140, D22). -/
theorem loadResult_faults (hout : s.cfg.memSize < ea.toNat + n) (rd : RegIdx) (extend : BitVec (8 * n) → Word) :
    ∃ t, s.loadResult rd ea n extend = .next t ∧ FaultedBy s t .load ea :=
  ⟨_, loadResult_outOfBounds (Nat.not_le.2 hout) rd extend, raiseMemoryFault_faultedBy s .load ea⟩

end

/-! ### The values of the loads (R141 to R145) -/

section
variable (m : Memory) (a : Nat)

theorem signExtend_readLE_one : (m.readLE a 1).signExtend 32 = Spec.sext (m.readByte a) := by
  rw [readLE_one]
  exact (Spec.sext_eq_signExtend (by decide) _).symm

theorem signExtend_readLE_two :
    (m.readLE a 2).signExtend 32 = Spec.sext (m.readByte (a + 1) ++ m.readByte a : BitVec 16) := by
  rw [readLE_two]
  exact (Spec.sext_eq_signExtend (by decide) _).symm

theorem setWidth_readLE_one : (m.readLE a 1).setWidth 32 = Spec.zext (m.readByte a) := by
  rw [readLE_one]
  exact (BitVec.ofNat_toNat 32 _).symm

theorem setWidth_readLE_two :
    (m.readLE a 2).setWidth 32 = Spec.zext (m.readByte (a + 1) ++ m.readByte a : BitVec 16) := by
  rw [readLE_two]
  exact (BitVec.ofNat_toNat 32 _).symm

end

end Sys2Proof.Machine

namespace Sys2Proof

open Machine

/-- Settles O33: one byte, extended either way. -/
theorem byteLoadsExtendTheByte : Obligations.ByteLoadsExtendTheByte := by
  refine fun s rd rs1 imm => ⟨effAddr_eq_add32 s rs1 imm, fun hin => ?_⟩
  rw [← signExtend_readLE_one, ← setWidth_readLE_one]
  exact ⟨loadResult_completes hin rd _, loadResult_completes hin rd _⟩

/-- Settles O34: two bytes, extended either way. -/
theorem halfwordLoadsExtendTheTwoBytes : Obligations.HalfwordLoadsExtendTheTwoBytes := by
  intro s rd rs1 imm hin
  rw [← signExtend_readLE_two, ← setWidth_readLE_two]
  exact ⟨loadResult_completes hin rd _, loadResult_completes hin rd _⟩

/-- Settles O35: four bytes, as they are. -/
theorem wordLoadTakesTheFourBytes : Obligations.WordLoadTakesTheFourBytes := by
  intro s rd rs1 imm hin
  rw [← readLE_four]
  exact loadResult_completes hin rd _

/-- Settles O36: every width of load. -/
theorem loadsBeyondTheMemoryFault : Obligations.LoadsBeyondTheMemoryFault := fun _ rd _ _ =>
  ⟨fun hout => ⟨loadResult_faults hout rd _, loadResult_faults hout rd _⟩,
    fun hout => ⟨loadResult_faults hout rd _, loadResult_faults hout rd _⟩, fun hout => loadResult_faults hout rd _⟩

/-- Settles O37: every width of store. -/
theorem storesWriteTheLowBytesAndNothingElse : Obligations.StoresWriteTheLowBytesAndNothingElse :=
  fun s rs1 rs2 imm hwf => ⟨effAddr_eq_add32 s rs1 imm, fun hin => storeResult_completes hwf hin (s.getReg rs2),
    fun hin => storeResult_completes hwf hin (s.getReg rs2), fun hin => storeResult_completes hwf hin (s.getReg rs2)⟩

/-- Settles O38: every width of store. -/
theorem storesBeyondTheMemoryFault : Obligations.StoresBeyondTheMemoryFault := fun s _ rs2 _ =>
  ⟨fun hout => storeResult_faults hout (s.getReg rs2), fun hout => storeResult_faults hout (s.getReg rs2),
    fun hout => storeResult_faults hout (s.getReg rs2)⟩

/-- Settles O39: SW changes no register, so LW has its address, and the word it wrote reads back. -/
theorem loadingAStoredWordReturnsIt : Obligations.LoadingAStoredWordReturnsIt := by
  intro s rs1 rs2 rd imm hwf hin
  refine ⟨_, _, storeResult_inBounds hin (s.getReg rs2), loadResult_inBounds ?_ rd _, ?_⟩
  · rwa [effAddr_setMem_setPc]
  · rw [getReg_setPc, getReg_setReg, if_pos rfl, effAddr_setMem_setPc, setPc_mem, setMem_mem, readLE_writeLE_word hwf]

/-- Settles O40: the fetch after the store reads the word just written. -/
theorem aStoreIsSeenByTheNextFetch : Obligations.AStoreIsSeenByTheNextFetch := by
  intro s rs1 rs2 imm hwf hea hin
  refine ⟨_, storeResult_inBounds hin (s.getReg rs2), ?_⟩
  rw [hea] at hin ⊢
  rw [fetch_setMem_setPc hin, readLE_writeLE_word hwf]

end Sys2Proof
end

section
/-! PROOFS. The ALU instructions and AUIPC (spec/41_alu_register.md, spec/42_alu_immediate.md,
spec/47_upper_immediate.md), over the model's word operations as the arithmetic of spec/00_scope.md R8 and R9. -/

namespace Sys2Proof

/-! ### The arithmetic of R9 -/

namespace Spec

theorem sub32_eq_sub (a b : Word) : sub32 a b = a - b := by
  apply BitVec.eq_of_toNat_eq
  rw [sub32, BitVec.toNat_ofNat, BitVec.toNat_sub]
  omega

theorem shl32_eq_shiftLeft (a : Word) (n : Nat) : shl32 a n = a <<< n := by
  apply BitVec.eq_of_toNat_eq
  rw [shl32, BitVec.toNat_ofNat, Nat.mod_mod, BitVec.toNat_shiftLeft, Nat.shiftLeft_eq]

theorem lsr32_eq_ushiftRight (a : Word) (n : Nat) : lsr32 a n = a >>> n := by
  apply BitVec.eq_of_toNat_eq
  rw [lsr32, BitVec.toNat_ofNat, BitVec.toNat_ushiftRight, Nat.shiftRight_eq_div_pow]
  exact Nat.mod_eq_of_lt ((Nat.div_le_self _ _).trans_lt a.isLt)

/-- R9: the quotient rounded down, as the divisor is positive. -/
theorem asr32_eq_sshiftRight (a : Word) (n : Nat) : asr32 a n = a.sshiftRight n := by
  rw [asr32, BitVec.sshiftRight, Int.shiftRight_eq_div_pow, Int.fdiv_eq_ediv_of_nonneg _ (by positivity)]
  push_cast
  rfl

/-- R109: the written value of a comparison. -/
theorem oneIf_eq_boolWord (p : Prop) [Decidable p] : oneIf p = Machine.boolWord (decide p) := by
  simp only [oneIf, Machine.boolWord, decide_eq_true_eq]

end Spec

/-- R106, D19: the low 5 bits of a word are its residue modulo 32. -/
theorem Machine.regShiftCount_eq (v : Word) : regShiftCount v = v.toNat % 32 :=
  BitVec.extractLsb'_toNat 0 5 v

open Machine

/-- Completing with a value given by its bits. -/
theorem Machine.writeResult_completes_bits (s : State) (rd : RegIdx) {v : Word} {f : Nat → Bool}
    (hv : ∀ k, v.getLsbD k = f k) :
    ∃ t v', s.writeResult rd v = .next t ∧ OnlyRegAndPc s t rd v' (Spec.add32 s.pc 4#32) ∧
      ∀ k, v'.getLsbD k = f k := by
  obtain ⟨t, ht, hframe⟩ := writeResult_completes s rd v
  exact ⟨t, v, ht, hframe, hv⟩

/-! ### Register-register (R101 to R110) -/

/-- Settles O22: the sum and the difference of words are the residues. -/
theorem addAndSubWriteTheResidueModulo2Pow32 : Obligations.AddAndSubWriteTheResidueModulo2Pow32 := by
  intro s rd rs1 rs2
  rw [Spec.add32_eq_add (s.getReg rs1), Spec.sub32_eq_sub]
  exact ⟨writeResult_completes s rd _, writeResult_completes s rd _⟩

/-- Settles O23: the bitwise operations of words, bit by bit. -/
theorem xorOrAndWriteTheBitwiseResult : Obligations.XorOrAndWriteTheBitwiseResult := fun s rd _ _ =>
  ⟨writeResult_completes_bits s rd fun _ => BitVec.getLsbD_xor,
    writeResult_completes_bits s rd fun _ => BitVec.getLsbD_or,
    writeResult_completes_bits s rd fun _ => BitVec.getLsbD_and⟩

/-- Settles O24: the shifts of words by the low 5 bits of the count. -/
theorem registerShiftsUseTheLowFiveBitsOfTheCount : Obligations.RegisterShiftsUseTheLowFiveBitsOfTheCount := by
  intro s rd rs1 rs2
  rw [← regShiftCount_eq, Spec.shl32_eq_shiftLeft, Spec.lsr32_eq_ushiftRight, Spec.asr32_eq_sshiftRight]
  exact ⟨writeResult_completes s rd _, writeResult_completes s rd _, writeResult_completes s rd _⟩

/-- Settles O25: the comparisons of words are those of their readings. -/
theorem setLessThanWritesOneOrZero : Obligations.SetLessThanWritesOneOrZero := by
  intro s rd rs1 rs2
  rw [Spec.oneIf_eq_boolWord, Spec.oneIf_eq_boolWord]
  exact ⟨writeResult_completes s rd _, writeResult_completes s rd _⟩

/-! ### Register-immediate (R121 to R129) -/

/-- Settles O26: from `x0` the sum is the immediate. -/
theorem addiWritesTheSumWithTheImmediate : Obligations.AddiWritesTheSumWithTheImmediate := by
  intro s rd rs1 imm
  rw [Spec.add32_eq_add (s.getReg rs1)]
  obtain ⟨t, ht, hframe⟩ := writeResult_completes s rd (s.getReg 0#5 + imm)
  refine ⟨writeResult_completes s rd _, t, ht, ?_⟩
  rw [hframe.regs, if_pos rfl, getReg_zero, BitVec.zero_add]

/-- Settles O27: the bitwise operations of words, bit by bit. -/
theorem xoriOriAndiWriteTheBitwiseResult : Obligations.XoriOriAndiWriteTheBitwiseResult := fun s rd _ _ =>
  ⟨writeResult_completes_bits s rd fun _ => BitVec.getLsbD_xor,
    writeResult_completes_bits s rd fun _ => BitVec.getLsbD_or,
    writeResult_completes_bits s rd fun _ => BitVec.getLsbD_and⟩

/-- Settles O28: the comparisons of words are those of their readings. -/
theorem setLessThanImmediateWritesOneOrZero : Obligations.SetLessThanImmediateWritesOneOrZero := by
  intro s rd rs1 imm
  rw [Spec.oneIf_eq_boolWord, Spec.oneIf_eq_boolWord]
  exact ⟨writeResult_completes s rd _, writeResult_completes s rd _⟩

/-- Settles O29: the shifts of words. -/
theorem immediateShiftsShiftByTheirCount : Obligations.ImmediateShiftsShiftByTheirCount := by
  intro s rd rs1 shamt
  rw [Spec.shl32_eq_shiftLeft, Spec.lsr32_eq_ushiftRight, Spec.asr32_eq_sshiftRight]
  exact ⟨writeResult_completes s rd _, writeResult_completes s rd _, writeResult_completes s rd _⟩

/-! ### Upper immediates (R180, R181) and the general LI (R80) -/

/-- Settles O46: the sum of words is `add32`, and pc is still AUIPC's own address. -/
theorem auipcWritesItsAddressPlusTheImmediate : Obligations.AuipcWritesItsAddressPlusTheImmediate := by
  intro s rd imm
  rw [Spec.add32_eq_add s.pc imm]
  exact writeResult_completes s rd (s.pc + imm)

/-- R80: the upper part is the constant, rounded up where its low 12 bits read negative, to a multiple of 4096. -/
theorem toNat_liUpper (imm : Word) : (liUpper imm).toNat = (imm.toNat + 2048) % 2 ^ 32 / 4096 % 2 ^ 20 * 4096 := by
  have h := toNat_immU (imm + 0x800#32)
  rwa [BitVec.extractLsb'_toNat, BitVec.toNat_add, Nat.shiftRight_eq_div_pow] at h

/-- R80: the lower part is the low 12 bits, less 4096 (modulo 2^32) where they read negative. -/
theorem toNat_liLower (imm : Word) :
    (liLower imm).toNat = imm.toNat % 4096 + if 2048 ≤ imm.toNat % 4096 then 2 ^ 32 - 4096 else 0 := by
  have hlow : (imm.extractLsb' 0 12).toNat = imm.toNat % 4096 := BitVec.extractLsb'_toNat 0 12 imm
  rw [liLower, BitVec.toNat_signExtend, BitVec.toNat_setWidth, BitVec.msb_eq_decide, hlow]
  simp only [decide_eq_true_eq, Nat.reduceSub, Nat.reducePow]
  omega

/-- R80: the rounding of the upper part makes up for the sign of the lower. -/
theorem liUpper_add_liLower (imm : Word) : liUpper imm + liLower imm = imm := by
  apply BitVec.eq_of_toNat_eq
  rw [BitVec.toNat_add, toNat_liUpper, toNat_liLower]
  split <;> omega

namespace Machine

section
variable {s t u : State} {rd : RegIdx} {v w p q : Word}

/-- A second write to the same register takes the place of the first. -/
theorem OnlyRegAndPc.trans (h : OnlyRegAndPc s t rd v p) (h' : OnlyRegAndPc t u rd w q) : OnlyRegAndPc s u rd w q where
  regs r := by
    rw [h'.regs, h.regs]
    split_ifs <;> rfl
  pc := h'.pc
  mem a := (h'.mem a).trans (h.mem a)
  control := ⟨h'.control.runState.trans h.control.runState, h'.control.log.trans h.control.log,
    h'.control.cfg.trans h.control.cfg⟩

/-- Into `x0` any value is as good as another. -/
theorem OnlyRegAndPc.congr_value (h : OnlyRegAndPc s t rd v p) (hv : rd ≠ 0#5 → v = w) : OnlyRegAndPc s t rd w p where
  regs r := by
    rw [h.regs]
    split_ifs with hr hrd
    · rfl
    · exact hv (hrd ▸ hr)
    · rfl
  pc := h.pc
  mem := h.mem
  control := h.control

end

end Machine

/-- Settles O57: ADDI adds the low bits to what LUI left in the register. -/
theorem luiThenAddiBuildsAnyConstant : Obligations.LuiThenAddiBuildsAnyConstant := by
  intro s rd imm
  obtain ⟨t, ht, hlui⟩ := writeResult_completes s rd (liUpper imm)
  obtain ⟨u, hu, haddi⟩ := writeResult_completes t rd (t.getReg rd + liLower imm)
  refine ⟨?_, fitsImm12_signExtend _, t, u, ht, hu, ?_⟩
  · exact fitsImmU_immU (imm + 0x800#32)
  have hpc : Spec.add32 t.pc 4#32 = Spec.add32 s.pc 8#32 := by
    rw [hlui.pc, Spec.add32_eq_add, Spec.add32_eq_add, Spec.add32_eq_add, BitVec.add_assoc]
    rfl
  rw [hpc] at haddi
  refine (hlui.trans haddi).congr_value fun hrd => ?_
  rw [hlui.regs, if_neg hrd, if_pos rfl, liUpper_add_liLower]

end Sys2Proof
end

section
/-! PROOFS. Branches, JALR, ECALL and EBREAK (spec/45_branches.md, spec/46_jumps.md, spec/48_system.md). -/

namespace Sys2Proof.Machine

/-! ### Moving pc alone (R160, R191) -/

theorem setPc_onlyPc (s : State) (p : Word) : OnlyPc s (s.setPc p) p where
  regs r := getReg_setPc s p r
  pc := rfl
  mem _ := rfl
  control := ⟨rfl, rfl, rfl⟩

/-- R160: a branch by a condition completes with pc at its target or at the next instruction. -/
theorem branchResult_completes (s : State) (p : Prop) [Decidable p] (imm : Word) :
    ∃ t, s.branchResult (decide p) imm = .next t ∧
      OnlyPc s t (if p then Spec.add32 s.pc imm else Spec.add32 s.pc 4#32) := by
  simp only [Spec.add32_eq_add]
  refine ⟨_, branchResult_eq s (decide p) imm, ?_⟩
  simp only [decide_eq_true_eq]
  exact setPc_onlyPc s _

/-- R162, R164, R166: a branch by the negation of a condition. -/
theorem branchResult_not_completes (s : State) (p : Prop) [Decidable p] (imm : Word) :
    ∃ t, s.branchResult (!decide p) imm = .next t ∧
      OnlyPc s t (if p then Spec.add32 s.pc 4#32 else Spec.add32 s.pc imm) := by
  rw [← decide_not, ← ite_not]
  exact branchResult_completes s (¬ p) imm

/-! ### JALR's target (R171) -/

/-- R12, R171: a jump completes with the link in its register. -/
theorem jumpResult_completes (s : State) (rd : RegIdx) (target : Word) :
    ∃ t, s.jumpResult rd target = .next t ∧ OnlyRegAndPc s t rd (Spec.add32 s.pc 4#32) target := by
  rw [Spec.add32_eq_add]
  exact ⟨_, jumpResult_eq s rd target, setReg_setPc_onlyRegAndPc s rd (s.pc + 4#32) target⟩

section
variable {s : State} (rs1 : RegIdx) (imm : Word)

theorem jalrTarget_of_kept (h : s.cfg.jalrClearBit0 = false) :
    s.jalrTarget rs1 imm = Spec.add32 (s.getReg rs1) imm := by
  simp [State.jalrTarget, h, Spec.add32_eq_add]

/-- D5: clearing bit 0 rounds down to an even address. -/
theorem jalrTarget_of_cleared (h : s.cfg.jalrClearBit0 = true) :
    s.jalrTarget rs1 imm = BitVec.ofNat 32 ((Spec.add32 (s.getReg rs1) imm).toNat / 2 * 2) := by
  rw [Spec.add32_eq_add, State.jalrTarget, if_pos h]
  apply BitVec.eq_of_toNat_eq
  have hlt := (s.getReg rs1 + imm).isLt
  rw [BitVec.toNat_append, BitVec.extractLsb'_toNat, Nat.shiftRight_eq_div_pow, Nat.shiftLeft_eq]
  refine (Nat.or_zero _).trans ?_
  rw [BitVec.toNat_ofNat]
  omega

end

end Sys2Proof.Machine

namespace Sys2Proof

open Machine

/-- Settles O41: equality of words is equality of all their bits. -/
theorem equalityBranchesMovePcOnly : Obligations.EqualityBranchesMovePcOnly := fun s rs1 rs2 imm =>
  ⟨branchResult_completes s (s.getReg rs1 = s.getReg rs2) imm,
    branchResult_not_completes s (s.getReg rs1 = s.getReg rs2) imm⟩

/-- Settles O42: the comparisons of words are those of their readings. -/
theorem orderBranchesMovePcOnly : Obligations.OrderBranchesMovePcOnly := fun s rs1 rs2 imm =>
  ⟨branchResult_completes s (Spec.lts (s.getReg rs1) (s.getReg rs2)) imm,
    branchResult_not_completes s (Spec.lts (s.getReg rs1) (s.getReg rs2)) imm,
    branchResult_completes s (Spec.ltu (s.getReg rs1) (s.getReg rs2)) imm,
    branchResult_not_completes s (Spec.ltu (s.getReg rs1) (s.getReg rs2)) imm⟩

/-- Settles O44: JALR jumps to its target, computed from the old base. -/
theorem jalrLinksAndJumpsToTheOldBase : Obligations.JalrLinksAndJumpsToTheOldBase := by
  refine fun s rd rs1 imm => ⟨fun h => ?_, fun h => ?_⟩
  · rw [← jalrTarget_of_kept rs1 imm h]
    exact jumpResult_completes s rd _
  · rw [← jalrTarget_of_cleared rs1 imm h]
    exact jumpResult_completes s rd _

/-! ### ECALL and EBREAK (R190 to R192) -/

section
variable {w : Word}

theorem decodeWord_eq_ecall_iff : decodeWord w = .ok .ecall ↔ w &&& 0xFFF0707F#32 = 0x00000073#32 := by
  refine ⟨row_holds_of_decodeWord, fun h => ?_⟩
  obtain ⟨hop, hf3, hsys⟩ := fields_eq_of_and_sysField h
  simp [decodeWord, decodeSystem, hop, hf3, hsys]

theorem decodeWord_eq_ebreak_iff : decodeWord w = .ok .ebreak ↔ w &&& 0xFFF0707F#32 = 0x00100073#32 := by
  refine ⟨row_holds_of_decodeWord, fun h => ?_⟩
  obtain ⟨hop, hf3, hsys⟩ := fields_eq_of_and_sysField h
  simp [decodeWord, decodeSystem, hop, hf3, hsys]

end

/-- Settles O47: ECALL's row is the whole of its decoding, and its meaning is to advance. -/
theorem ecallOnlyAdvancesPc : Obligations.EcallOnlyAdvancesPc :=
  ⟨fun _ => decodeWord_eq_ecall_iff, fun s => ⟨_, rfl, Spec.add32_eq_add s.pc 4#32 ▸ setPc_onlyPc s _⟩⟩

/-- Settles O48: halting sets run_state and nothing else. -/
theorem ebreakHaltsAtItsOwnAddress : Obligations.EbreakHaltsAtItsOwnAddress :=
  ⟨fun _ => decodeWord_eq_ebreak_iff,
    fun s => ⟨s.halt, rfl, rfl, getReg_halt s, rfl, fun _ => rfl, rfl, rfl⟩⟩

end Sys2Proof
end

section
/-! PROOFS. What every instruction and every step may change (spec/10_state.md sections 1, 2, 3 and 5,
spec/60_exceptions.md sections 1 and 3). -/

namespace Sys2Proof.Machine

variable {i : Instr} {s t : State}

/-! ### Memory, parameters, log and HALTED after one instruction -/

/-- Every effect but a store's leaves the memory list. -/
theorem Effect.mem_eq (h : Effect i s t) (hs : i.stores = none) : t.mem = s.mem := by
  cases h with
  | writes => rw [setPc_mem, setReg_mem]
  | stores _ _ _ _ h => cases hs.symm.trans h
  | moves | loadFault | storeFault | halts => rfl

theorem Effect.cfg_eq (h : Effect i s t) : t.cfg = s.cfg := by
  cases h with
  | writes => rw [setPc_cfg, setReg_cfg]
  | moves | stores | loadFault | storeFault | halts => rfl

/-- An instruction records a MemoryFault or nothing. -/
theorem Effect.log_eq (h : Effect i s t) : ∃ records, records.length ≤ 1 ∧ t.log = s.log ++ records := by
  cases h with
  | writes => exact ⟨[], by decide, by simp⟩
  | moves | stores | halts => exact ⟨[], by decide, (List.append_nil _).symm⟩
  | loadFault | storeFault => exact ⟨[_], le_refl 1, rfl⟩

/-- EBREAK alone halts a core that was RUNNING. -/
theorem Effect.halted_iff (h : Effect i s t) (hr : s.runState = .running) : t.runState = .halted ↔ i = .ebreak := by
  cases h with
  | writes rd v p hd =>
    rw [setPc_runState, setReg_runState, hr]
    exact ⟨nofun, fun hi => by subst hi; cases hd⟩
  | moves p hd hs he =>
    rw [setPc_runState, hr]
    exact ⟨nofun, fun hi => absurd hi he⟩
  | stores rs1 imm n v hs =>
    rw [setPc_runState, setMem_runState, hr]
    exact ⟨nofun, fun hi => by subst hi; cases hs⟩
  | loadFault rs1 imm n hl => exact ⟨nofun, fun hi => by subst hi; cases hl⟩
  | storeFault rs1 imm n hs => exact ⟨nofun, fun hi => by subst hi; cases hs⟩
  | halts hi => exact ⟨fun _ => hi, fun _ => rfl⟩

/-- UNIMP leads to RUNNING or FAULTED, never to HALTED (R95). -/
theorem unimplemented_runState_ne_halted (hr : s.runState = .running) (w : Word) :
    (s.unimplemented w).runState ≠ .halted := by
  unfold State.unimplemented
  split
  · simp [hr]
  · simp

end Sys2Proof.Machine

namespace Sys2Proof

open Machine

/-- Settles O49: `exec_effect` without the effect. -/
theorem everyInstructionAnswersANextState : Obligations.EveryInstructionAnswersANextState := by
  intro i s
  obtain ⟨t, ht, -⟩ := exec_effect i s
  exact ⟨t, ht⟩

/-- Settles O51: the register frame of `Effect`, and of UNIMP. -/
theorem onlyTheDestinationRegisterChanges : Obligations.OnlyTheDestinationRegisterChanges := by
  refine ⟨fun i s t h r => (effect_of_exec h).getReg_of_dest_ne, fun s t w reason hf hd h r => ?_⟩
  obtain ⟨hr, -⟩ := step_cases h
  cases (step_of_decodeWord_error hr hf hd).symm.trans h
  exact getReg_unimplemented s r w

/-- Settles O52: neither the fetch fault nor UNIMP touches the memory. -/
theorem onlyStoresChangeMemory : Obligations.OnlyStoresChangeMemory := by
  refine ⟨fun i s t h => (effect_of_exec h).mem_eq, fun s t h hnone => ?_⟩
  obtain ⟨-, hcase⟩ := step_cases h
  cases hcase with
  | fetchFault _ ht => exact ht ▸ rfl
  | unimplemented w _ _ _ ht => exact ht ▸ unimplemented_mem s w
  | runs w i hf hd ht => exact (effect_of_exec ht).mem_eq (hnone w i hf hd)

/-- Settles O53: a step halts exactly when the instruction it runs is EBREAK. -/
theorem onlyEbreakHalts : Obligations.OnlyEbreakHalts := by
  intro s t h
  simp only [← decodeWord_eq_ebreak_iff]
  obtain ⟨hr, hcase⟩ := step_cases h
  cases hcase with
  | fetchFault hf ht => simp [ht, hf]
  | unimplemented w r hf hd ht => simp [ht, hf, hd, unimplemented_runState_ne_halted hr]
  | runs w i hf hd ht => simp [hf, hd, (effect_of_exec ht).halted_iff hr]

/-- Settles O54: each case of `StepCase` records at most once. -/
theorem theLogGrowsByAtMostOneRecord : Obligations.TheLogGrowsByAtMostOneRecord := by
  intro s t h
  obtain ⟨-, hcase⟩ := step_cases h
  cases hcase with
  | fetchFault _ ht => exact ht ▸ ⟨rfl, [_], le_refl 1, rfl⟩
  | unimplemented w _ _ _ ht => exact ht ▸ ⟨unimplemented_cfg s w, [_], le_refl 1, unimplemented_log s w⟩
  | runs w i _ _ ht => exact ⟨(effect_of_exec ht).cfg_eq, (effect_of_exec ht).log_eq⟩

end Sys2Proof

namespace Sys2Proof.Machine

/-! ### Parity of pc (10_state.md section 2) -/

section
variable {s t : State} {rd : RegIdx}

theorem pc_of_writeResult {v : Word} (h : s.writeResult rd v = .next t) : t.pc = s.pc + 4#32 := by
  cases (writeResult_eq s rd v).symm.trans h
  rfl

theorem pc_of_jumpResult {target : Word} (h : s.jumpResult rd target = .next t) : t.pc = target := by
  cases (jumpResult_eq s rd target).symm.trans h
  rfl

theorem pc_of_branchResult {c : Bool} {imm : Word} (h : s.branchResult c imm = .next t) :
    t.pc = s.pc + imm ∨ t.pc = s.pc + 4#32 := by
  cases (branchResult_eq s c imm).symm.trans h
  cases c
  · exact .inr rfl
  · exact .inl rfl

theorem pc_of_loadResult {ea : Word} {n : Nat} {extend : BitVec (8 * n) → Word}
    (h : s.loadResult rd ea n extend = .next t) : t.pc = s.pc + 4#32 ∨ t.pc = s.pc := by
  by_cases hb : ea.toNat + n ≤ s.cfg.memSize
  · cases (loadResult_inBounds hb rd extend).symm.trans h
    exact .inl rfl
  · cases (loadResult_outOfBounds hb rd extend).symm.trans h
    exact .inr rfl

theorem pc_of_storeResult {ea v : Word} {n : Nat} (h : s.storeResult ea n v = .next t) :
    t.pc = s.pc + 4#32 ∨ t.pc = s.pc := by
  by_cases hb : ea.toNat + n ≤ s.cfg.memSize
  · cases (storeResult_inBounds hb v).symm.trans h
    exact .inl rfl
  · cases (storeResult_outOfBounds hb v).symm.trans h
    exact .inr rfl

end

/-- Addition keeps words even, wrapping or not. -/
theorem add_even {a b : Word} (ha : a.toNat % 2 = 0) (hb : b.toNat % 2 = 0) : (a + b).toNat % 2 = 0 :=
  Spec.add32_eq_add a b ▸ Spec.add32_even ha hb

/-- D5: a target with bit 0 cleared is even. -/
theorem jalrTarget_even {s : State} (h : s.cfg.jalrClearBit0 = true) (rs1 : RegIdx) (imm : Word) :
    (s.jalrTarget rs1 imm).toNat % 2 = 0 := by
  rw [jalrTarget_of_cleared rs1 imm h, BitVec.toNat_ofNat]
  omega

/-- R66, R68: the offset of a well-formed branch or JAL is even. -/
theorem toNat_even_of_fitsImmB {imm : Word} (h : fitsImmB imm = true) : imm.toNat % 2 = 0 := by
  obtain ⟨-, -, heven⟩ := of_decide_eq_true h
  exact toNat_even_of_toInt_even heven

theorem toNat_even_of_fitsImmJ {imm : Word} (h : fitsImmJ imm = true) : imm.toNat % 2 = 0 := by
  obtain ⟨-, -, heven⟩ := of_decide_eq_true h
  exact toNat_even_of_toInt_even heven

/-- A well-formed instruction moves pc by 4, by an even offset, to a cleared target, or not at all. -/
theorem exec_pc_even {i : Instr} {s t : State} (hwf : i.wf = true) (hc : s.cfg.jalrClearBit0 = true)
    (hpc : s.pc.toNat % 2 = 0) (h : exec i s = .next t) : t.pc.toNat % 2 = 0 := by
  have hnext : (s.pc + 4#32).toNat % 2 = 0 := add_even hpc rfl
  cases i with
  | add | sub | xor | or | and | sll | srl | sra | slt | sltu | addi | xori | ori | andi | slti | sltiu | slli | srli
  | srai | lui | auipc => exact pc_of_writeResult h ▸ hnext
  | lb | lh | lw | lbu | lhu =>
    rcases pc_of_loadResult h with he | he
    · exact he ▸ hnext
    · exact he ▸ hpc
  | sb | sh | sw =>
    rcases pc_of_storeResult h with he | he
    · exact he ▸ hnext
    · exact he ▸ hpc
  | beq | bne | blt | bge | bltu | bgeu =>
    rcases pc_of_branchResult h with he | he
    · exact he ▸ add_even hpc (toNat_even_of_fitsImmB hwf)
    · exact he ▸ hnext
  | jal => exact pc_of_jumpResult h ▸ add_even hpc (toNat_even_of_fitsImmJ hwf)
  | jalr rd rs1 imm => exact pc_of_jumpResult h ▸ jalrTarget_even hc rs1 imm
  | ecall => cases h; exact hnext
  | ebreak => cases h; exact hpc

/-- UNIMP moves pc by 4 or not at all (R95). -/
theorem unimplemented_pc_even {s : State} (hpc : s.pc.toNat % 2 = 0) (w : Word) :
    (s.unimplemented w).pc.toNat % 2 = 0 := by
  unfold State.unimplemented
  split
  · exact add_even hpc rfl
  · exact hpc

end Sys2Proof.Machine

namespace Sys2Proof

open Machine

/-- Settles O56: a decoded instruction is well formed, so `exec_pc_even` covers it. -/
theorem pcStaysEvenWhenJalrClearsBitZero : Obligations.PcStaysEvenWhenJalrClearsBitZero := by
  intro s t hc hpc h
  obtain ⟨-, hcase⟩ := step_cases h
  cases hcase with
  | fetchFault _ ht => exact ht ▸ hpc
  | unimplemented w _ _ _ ht => exact ht ▸ unimplemented_pc_even hpc w
  | runs w i _ hd ht => exact exec_pc_even (decodedInstructionsAreWellFormed w i hd) hc hpc ht

end Sys2Proof
end

section
/-! PROOFS. Registers an instruction does not name as sources are not read (spec/10_state.md R24). -/

namespace Sys2Proof.Machine

/-! ### A register write past another update -/

section
variable (s : State)

theorem getReg_setReg_of_ne {r a : RegIdx} (h : a ≠ r) (v : Word) : (s.setReg r v).getReg a = s.getReg a := by
  rw [getReg_setReg]
  split_ifs with hz
  · rw [hz, getReg_zero]
  · rfl

theorem setReg_setReg_same (r : RegIdx) (v w : Word) : (s.setReg r v).setReg r w = s.setReg r w := by
  simp only [State.setReg]
  split_ifs
  · rfl
  · simp

/-- Two registers other than `x0` have slots of their own. -/
theorem slot_ne {r rd : RegIdx} (h : rd ≠ r) (hr : r ≠ 0#5) (hrd : rd ≠ 0#5) : r.toNat - 1 ≠ rd.toNat - 1 := by
  bv_omega

theorem setReg_comm {r rd : RegIdx} (h : rd ≠ r) (v w : Word) :
    (s.setReg r v).setReg rd w = (s.setReg rd w).setReg r v := by
  unfold State.setReg
  split_ifs with hrd hr hr
  · rfl
  · rfl
  · rfl
  · simp only [Vector.set_comm v w (slot_ne h hr hrd)]

theorem setPc_setReg (r : RegIdx) (v p : Word) : (s.setReg r v).setPc p = (s.setPc p).setReg r v := by
  unfold State.setReg
  split_ifs <;> rfl

theorem setMem_setReg (r : RegIdx) (v : Word) (m : Memory) : (s.setReg r v).setMem m = (s.setMem m).setReg r v := by
  unfold State.setReg
  split_ifs <;> rfl

theorem raiseMemoryFault_setReg (r : RegIdx) (v : Word) (k : AccessKind) (a : Word) :
    (s.setReg r v).raiseMemoryFault k a = (s.raiseMemoryFault k a).setReg r v := by
  unfold State.setReg
  split_ifs <;> rfl

theorem halt_setReg (r : RegIdx) (v : Word) : (s.setReg r v).halt = s.halt.setReg r v := by
  unfold State.setReg
  split_ifs <;> rfl

end

/-- Two answers that differ in register `r` alone, which holds `v` in the second, or not at all where `r` is the
destination. -/
def DifferAt (dest : Option RegIdx) (r : RegIdx) (v : Word) (x x' : Result) : Prop :=
  ∃ t t', x = .next t ∧ x' = .next t' ∧ (t' = t.setReg r v ∨ (dest = some r ∧ t' = t))

section
variable (s : State) (r : RegIdx) (v : Word)

/-- A write to the destination takes the place of the changed register, or passes it. -/
theorem setReg_setPc_differAt (rd : RegIdx) (w p : Word) :
    DifferAt (some rd) r v (.next ((s.setReg rd w).setPc p)) (.next (((s.setReg r v).setReg rd w).setPc p)) := by
  refine ⟨_, _, rfl, rfl, ?_⟩
  by_cases h : rd = r
  · subst h
    exact .inr ⟨rfl, by rw [setReg_setReg_same]⟩
  · exact .inl (by rw [setReg_comm s h, setPc_setReg])

theorem writeResult_differAt (rd : RegIdx) (w : Word) :
    DifferAt (some rd) r v (s.writeResult rd w) ((s.setReg r v).writeResult rd w) := by
  rw [writeResult_eq, writeResult_eq, setReg_pc]
  exact setReg_setPc_differAt ..

theorem jumpResult_differAt (rd : RegIdx) (target : Word) :
    DifferAt (some rd) r v (s.jumpResult rd target) ((s.setReg r v).jumpResult rd target) := by
  rw [jumpResult_eq, jumpResult_eq, setReg_pc]
  exact setReg_setPc_differAt ..

theorem branchResult_differAt (dest : Option RegIdx) (c : Bool) (imm : Word) :
    DifferAt dest r v (s.branchResult c imm) ((s.setReg r v).branchResult c imm) := by
  rw [branchResult_eq, branchResult_eq, setReg_pc]
  exact ⟨_, _, rfl, rfl, .inl (setPc_setReg ..)⟩

theorem loadResult_differAt (rd : RegIdx) (ea : Word) (n : Nat) (extend : BitVec (8 * n) → Word) :
    DifferAt (some rd) r v (s.loadResult rd ea n extend) ((s.setReg r v).loadResult rd ea n extend) := by
  by_cases hb : ea.toNat + n ≤ s.cfg.memSize
  · rw [loadResult_inBounds hb, loadResult_inBounds (by rwa [setReg_cfg]), setReg_mem, setReg_pc]
    exact setReg_setPc_differAt ..
  · rw [loadResult_outOfBounds hb, loadResult_outOfBounds (by rwa [setReg_cfg])]
    exact ⟨_, _, rfl, rfl, .inl (raiseMemoryFault_setReg ..)⟩

theorem storeResult_differAt (dest : Option RegIdx) (ea : Word) (n : Nat) (w : Word) :
    DifferAt dest r v (s.storeResult ea n w) ((s.setReg r v).storeResult ea n w) := by
  by_cases hb : ea.toNat + n ≤ s.cfg.memSize
  · rw [storeResult_inBounds hb, storeResult_inBounds (by rwa [setReg_cfg]), setReg_mem, setReg_pc]
    exact ⟨_, _, rfl, rfl, .inl (by rw [setMem_setReg, setPc_setReg])⟩
  · rw [storeResult_outOfBounds hb, storeResult_outOfBounds (by rwa [setReg_cfg])]
    exact ⟨_, _, rfl, rfl, .inl (raiseMemoryFault_setReg ..)⟩

end

end Sys2Proof.Machine

namespace Sys2Proof

open Machine

/-- Settles O55: the sources read as before, so each instruction ends in the same way with the same operands. -/
theorem registersNotNamedAsSourcesAreNotRead : Obligations.RegistersNotNamedAsSourcesAreNotRead := by
  intro i s r v hr
  have hread : ∀ a ∈ i.sources, (s.setReg r v).getReg a = s.getReg a :=
    fun a ha => getReg_setReg_of_ne s (ne_of_mem_of_not_mem ha hr) v
  cases i with
  | add rd a b | sub rd a b | xor rd a b | or rd a b | and rd a b | sll rd a b | srl rd a b | sra rd a b | slt rd a b
  | sltu rd a b =>
    obtain ⟨ha, hrest⟩ := List.forall_mem_cons.1 hread
    have hb := List.forall_mem_singleton.1 hrest
    simp only [exec, execAdd, execSub, execXor, execOr, execAnd, execSll, execSrl, execSra, execSlt, execSltu, ha, hb]
    exact writeResult_differAt ..
  | addi rd a | xori rd a | ori rd a | andi rd a | slti rd a | sltiu rd a | slli rd a | srli rd a | srai rd a =>
    have ha := List.forall_mem_singleton.1 hread
    simp only [exec, execAddi, execXori, execOri, execAndi, execSlti, execSltiu, execSlli, execSrli, execSrai, ha]
    exact writeResult_differAt ..
  | lb rd a | lh rd a | lw rd a | lbu rd a | lhu rd a =>
    have ha := List.forall_mem_singleton.1 hread
    simp only [exec, execLb, execLh, execLw, execLbu, execLhu, State.effAddr, ha]
    exact loadResult_differAt ..
  | sb a b | sh a b | sw a b =>
    obtain ⟨ha, hrest⟩ := List.forall_mem_cons.1 hread
    have hb := List.forall_mem_singleton.1 hrest
    simp only [exec, execSb, execSh, execSw, State.effAddr, ha, hb]
    exact storeResult_differAt ..
  | beq a b | bne a b | blt a b | bge a b | bltu a b | bgeu a b =>
    obtain ⟨ha, hrest⟩ := List.forall_mem_cons.1 hread
    have hb := List.forall_mem_singleton.1 hrest
    simp only [exec, execBeq, execBne, execBlt, execBge, execBltu, execBgeu, ha, hb]
    exact branchResult_differAt ..
  | jal rd imm =>
    simp only [exec, execJal, State.jalTarget, setReg_pc]
    exact jumpResult_differAt ..
  | jalr rd a imm =>
    have ha := List.forall_mem_singleton.1 hread
    simp only [exec, execJalr, State.jalrTarget, ha, setReg_cfg]
    exact jumpResult_differAt ..
  | lui rd imm => exact writeResult_differAt ..
  | auipc rd imm =>
    simp only [exec, execAuipc, setReg_pc]
    exact writeResult_differAt ..
  | ecall => exact ⟨_, _, rfl, rfl, .inl (by rw [State.advance, State.nextPc, setReg_pc, setPc_setReg]; rfl)⟩
  | ebreak => exact ⟨_, _, rfl, rfl, .inl (halt_setReg ..)⟩

end Sys2Proof
end

section
/-! PROOFS. Reset and boot (spec/10_state.md section 6, spec/70_reset_and_hazards.md section 2), the stuck states
(spec/40_cycle.md R90), and words of the spec. -/

namespace Sys2Proof.Machine

/-! ### Reset (R35) -/

section
variable (c : Config)

/-- D11: every register holds 0. -/
theorem getReg_resetWith (r : RegIdx) : (State.resetWith c).getReg r = 0#32 := by
  simp [State.getReg, State.resetWith]

/-- The invariant after reset: an empty memory list and an empty log. -/
theorem resetWith_inv (h : c.wf) : (State.resetWith c).Inv where
  memCanonical := wf_nil
  memWithin := by simp [State.resetWith]
  configInRange := h
  logFits := ⟨nofun, fun _ => rfl⟩

end

/-! ### Placing an image (R226) -/

/-- R226: byte `i` of the list is placed at `a + i`, and no other byte changes. -/
theorem readByte_writeList {m : Memory} (h : m.wf) (a : Nat) (bs : List Byte) (c : Nat) :
    (m.writeList a bs).readByte c = if a ≤ c then (bs[c - a]?).getD (m.readByte c) else m.readByte c := by
  induction bs generalizing m a with
  | nil => simp [Memory.writeList]
  | cons b bs ih =>
    rw [Memory.writeList, ih (wf_writeByte h a b), readByte_writeByte h]
    rcases Nat.lt_trichotomy c a with hc | rfl | hc
    · rw [if_neg (by omega), if_neg (by omega), if_neg (by omega)]
    · simp
    · rw [if_pos (by omega), if_neg (by omega), if_pos (by omega), show c - a = c - (a + 1) + 1 by omega,
        List.getElem?_cons_succ]

/-- The state a boot starts in: reset, with the image placed from address 0. -/
def bootState (c : Config) (image : List Byte) : State :=
  (State.resetWith c).setMem (Memory.writeList [] 0 image)

section
variable {c : Config} {image : List Byte}

theorem boot_of_fits (h : image.length ≤ c.memSize) : boot c image = some (bootState c image) := if_pos h

theorem boot_of_too_long (h : c.memSize < image.length) : boot c image = none := if_neg (Nat.not_le.2 h)

theorem readByte_bootState (a : Nat) : (bootState c image).mem.readByte a = (image[a]?).getD 0#8 :=
  readByte_writeList wf_nil 0 image a

theorem bootState_inv (hc : c.wf) (h : image.length ≤ c.memSize) : (bootState c image).Inv where
  memCanonical := wf_writeList wf_nil 0 image
  memWithin := within_writeList (size := c.memSize) (m := []) nofun image (by omega)
  configInRange := hc
  logFits := (resetWith_inv c hc).logFits

end

/-! ### Booting without an image (R228) -/

/-- The first fetch reads the injected EBREAK. -/
theorem fetch_bootState_ebreak {c : Config} (hc : c.wf) :
    (bootState c (bytesOfWord 0x00100073#32)).fetch = some 0x00100073#32 := by
  have hpc : (bootState c (bytesOfWord 0x00100073#32)).pc.toNat = 0 := rfl
  obtain ⟨hmin, -⟩ := hc
  rw [fetch_inBounds (by rwa [hpc]), hpc]
  simp only [readByte_bootState]
  rfl

end Sys2Proof.Machine

namespace Sys2Proof

open Machine

/-- Settles O1: R35's values, field by field. -/
theorem resetLeavesTheResetValues : Obligations.ResetLeavesTheResetValues :=
  ⟨fun c => ⟨getReg_resetWith c, rfl, rfl, fun _ => rfl, rfl, rfl⟩, rfl, rfl, rfl, rfl⟩

/-- Settles O2: R6's defaults are in range. -/
theorem resetMeetsTheInvariant : Obligations.ResetMeetsTheInvariant :=
  ⟨resetWith_inv, resetWith_inv Config.default (by decide)⟩

/-- Settles O4: `bootState` is the state of a boot that starts a run. -/
theorem bootPlacesTheImageOrRefusesIt : Obligations.BootPlacesTheImageOrRefusesIt := fun c image =>
  ⟨boot_of_too_long, fun h =>
    ⟨bootState c image, boot_of_fits h, readByte_bootState, rfl, fun hc => bootState_inv hc h⟩⟩

/-- Settles O5: the first step runs EBREAK, which halts with everything as reset left it. -/
theorem bootWithoutImageHaltsAtTheFirstStep : Obligations.BootWithoutImageHaltsAtTheFirstStep := fun c hc =>
  ⟨_, _, boot_of_fits hc.1, step_running rfl (fetch_bootState_ebreak hc) rfl, rfl, rfl, getReg_resetWith c, rfl⟩

/-- Settles O7: R90's first line. -/
theorem haltedAndFaultedAreStuckByName : Obligations.HaltedAndFaultedAreStuckByName :=
  fun s => ⟨fun h => by simp [step, h], fun h => by simp [step, h]⟩

/-- Settles O15: the decoder evaluated at each word. -/
theorem wordsOfTheSpecDecodeAsItSays : Obligations.WordsOfTheSpecDecodeAsItSays :=
  ⟨rfl, rfl, rfl, rfl, rfl, rfl, rfl, rfl, rfl, rfl, rfl, rfl, rfl, rfl, rfl, rfl, rfl, rfl, rfl⟩

end Sys2Proof
end
